-- ==== Sys2Proof/Word.lean ====
section
/-! DEFINITION. The word types of the 7-segment encoder block (spec 00_scope.md R5, R6; 30_encoding.md R60). -/

namespace Sys2Proof

/-- A segment byte, a command byte or any other byte the block writes (00_scope.md R6). -/
abbrev Byte := BitVec 8

/-- The 36-bit command word `w[35:0]` of the command port (30_encoding.md R60). -/
abbrev CmdWord := BitVec 36

/-- The 4-bit opcode field `OP = w[35:32]` (30_encoding.md R60). -/
abbrev Opcode := BitVec 4

/-- The 32-bit operand field `ARG = w[31:0]` (30_encoding.md R60). -/
abbrev Arg := BitVec 32

/-- One digit value, 0 to 15 (00_scope.md R10, 40_encoder.md R81: the encoder's input is 4 bits). -/
abbrev Digit := BitVec 4

/-- A bus address, 7 bits (10_state.md R29). -/
abbrev BusAddr := BitVec 7

/-- The decimal-places setting, 0 to 4 (10_state.md R26: these five are the only values `DP` can hold;
assumption 15). -/
abbrev Places := Fin 5

end Sys2Proof
end

