-- ==== Sys2Proof/Syntax.lean ====
section
/-! DEFINITION. The commands of the block, one constructor for each row of spec/opcode_table.json
(30_encoding.md R63, R64, R66). A format N command has no operand (R61). -/

namespace Sys2Proof

/-- A decoded command word. -/
inductive Instr where
  /-- SET_BRIGHTNESS `level`, opcode 0x0, format A (R110). -/
  | setBrightness (arg : Arg)
  /-- ENABLE_MUX, opcode 0x1, format N (R111). -/
  | enableMux
  /-- DISABLE_MUX, opcode 0x2, format N (R112). -/
  | disableMux
  /-- SET_DIGIT_ORDER `reversed`, opcode 0x3, format A (R113). -/
  | setDigitOrder (arg : Arg)
  /-- SET_DECIMAL_PLACES `n`, opcode 0x4, format A (R114). -/
  | setDecimalPlaces (arg : Arg)
  /-- CLEAR, opcode 0x5, format N (R132). -/
  | clear
  /-- SEND_DEC `m`, opcode 0x6, format A (R134). -/
  | sendDec (arg : Arg)
  /-- SEND_DEC_REAL `x`, opcode 0x7, format A (R135). -/
  | sendDecReal (arg : Arg)
  /-- SEND_HEX `v`, opcode 0x8, format A (R136). -/
  | sendHex (arg : Arg)
  /-- SEGMENT_TEST, opcode 0x9, format N (R137). -/
  | segmentTest
  /-- `Reserved(OP, ARG)`, the table's row for opcodes 0xA and 0xB (R64, R66). -/
  | reservedAB (op : Opcode) (arg : Arg)
  /-- `Reserved(OP, ARG)`, the table's row for opcodes 0xC to 0xF (R64, R66). -/
  | reservedCF (op : Opcode) (arg : Arg)
  deriving DecidableEq, Repr

/-- The mnemonic of the command's row, as spec/opcode_table.json spells it. -/
def Instr.mnemonic : Instr → String
  | .setBrightness _ => "SET_BRIGHTNESS"
  | .enableMux => "ENABLE_MUX"
  | .disableMux => "DISABLE_MUX"
  | .setDigitOrder _ => "SET_DIGIT_ORDER"
  | .setDecimalPlaces _ => "SET_DECIMAL_PLACES"
  | .clear => "CLEAR"
  | .sendDec _ => "SEND_DEC"
  | .sendDecReal _ => "SEND_DEC_REAL"
  | .sendHex _ => "SEND_HEX"
  | .segmentTest => "SEGMENT_TEST"
  | .reservedAB _ _ => "(reserved)"
  | .reservedCF _ _ => "(reserved)"

/-- The two reserved rows, which no host may present and the model refuses (R64). -/
def Instr.isReserved : Instr → Bool
  | .setBrightness _ => false
  | .enableMux => false
  | .disableMux => false
  | .setDigitOrder _ => false
  | .setDecimalPlaces _ => false
  | .clear => false
  | .sendDec _ => false
  | .sendDecReal _ => false
  | .sendHex _ => false
  | .segmentTest => false
  | .reservedAB _ _ => true
  | .reservedCF _ _ => true

end Sys2Proof
end

