-- ==== Sys2Proof/WellFormed.lean ====
section
/-! DEFINITION. Which terms of `Instr` stand for a command word: a reserved term's opcode lies in its row's range
(30_encoding.md R64, the two reserved rows of spec/opcode_table.json). No `ARG` value is reserved (R64). -/

namespace Sys2Proof

/-- The term is what the decoder reads from some command word. -/
def Instr.wf : Instr → Bool
  | .setBrightness _ => true
  | .enableMux => true
  | .disableMux => true
  | .setDigitOrder _ => true
  | .setDecimalPlaces _ => true
  | .clear => true
  | .sendDec _ => true
  | .sendDecReal _ => true
  | .sendHex _ => true
  | .segmentTest => true
  | .reservedAB op _ => op == 0xA#4 || op == 0xB#4
  | .reservedCF op _ => decide (0xC#4 ≤ op)

end Sys2Proof
end

