-- ==== Sys2Proof/Decode.lean ====
section
/-! DEFINITION. The decoder of 30_encoding.md R60 to R66, then the encoder, then the opcode table as masks and
patterns. Every 36-bit word decodes, to one of the ten commands or by name to a reserved row (R66). -/

namespace Sys2Proof

/-- The word with opcode `op` above operand `arg` (R60). -/
def cmdWord (op : Opcode) (arg : Arg) : CmdWord := op ++ arg

/-- `OP = w[35:32]` (R60). -/
def opField (w : CmdWord) : Opcode := w.extractLsb' 32 4

/-- `ARG = w[31:0]` (R60). -/
def argField (w : CmdWord) : Arg := w.extractLsb' 0 32

/-- The decoder: the opcode alone selects the command (R63, R65), format A takes all of `ARG`, format N ignores it
(R61). -/
def decode (w : CmdWord) : Instr :=
  match (opField w).toNat with
  | 0x0 => .setBrightness (argField w)
  | 0x1 => .enableMux
  | 0x2 => .disableMux
  | 0x3 => .setDigitOrder (argField w)
  | 0x4 => .setDecimalPlaces (argField w)
  | 0x5 => .clear
  | 0x6 => .sendDec (argField w)
  | 0x7 => .sendDecReal (argField w)
  | 0x8 => .sendHex (argField w)
  | 0x9 => .segmentTest
  | 0xA => .reservedAB (opField w) (argField w)
  | 0xB => .reservedAB (opField w) (argField w)
  | _ => .reservedCF (opField w) (argField w)

/-- The opcode of a command (R63). -/
def Instr.opcode : Instr → Opcode
  | .setBrightness _ => 0x0
  | .enableMux => 0x1
  | .disableMux => 0x2
  | .setDigitOrder _ => 0x3
  | .setDecimalPlaces _ => 0x4
  | .clear => 0x5
  | .sendDec _ => 0x6
  | .sendDecReal _ => 0x7
  | .sendHex _ => 0x8
  | .segmentTest => 0x9
  | .reservedAB op _ => op
  | .reservedCF op _ => op

/-- The operand of a command; an assembler writes 0 for a format N command (R61). -/
def Instr.argBits : Instr → Arg
  | .setBrightness arg => arg
  | .enableMux => 0
  | .disableMux => 0
  | .setDigitOrder arg => arg
  | .setDecimalPlaces arg => arg
  | .clear => 0
  | .sendDec arg => arg
  | .sendDecReal arg => arg
  | .sendHex arg => arg
  | .segmentTest => 0
  | .reservedAB _ arg => arg
  | .reservedCF _ arg => arg

/-- The word of a command: `OP` above `ARG` (R60). -/
def encode (i : Instr) : CmdWord := cmdWord i.opcode i.argBits

/-- One row of spec/opcode_table.json: a word belongs to it when the masked word is the pattern. -/
structure OpcodeRow where
  mnemonic : String
  pattern : CmdWord
  mask : CmdWord
  deriving DecidableEq, Repr

/-- spec/opcode_table.json, row by row, its "match" and "mask". -/
def opcodeTable : List OpcodeRow :=
  [ ⟨"SET_BRIGHTNESS", 0x000000000, 0xF00000000⟩,
    ⟨"ENABLE_MUX", 0x100000000, 0xF00000000⟩,
    ⟨"DISABLE_MUX", 0x200000000, 0xF00000000⟩,
    ⟨"SET_DIGIT_ORDER", 0x300000000, 0xF00000000⟩,
    ⟨"SET_DECIMAL_PLACES", 0x400000000, 0xF00000000⟩,
    ⟨"CLEAR", 0x500000000, 0xF00000000⟩,
    ⟨"SEND_DEC", 0x600000000, 0xF00000000⟩,
    ⟨"SEND_DEC_REAL", 0x700000000, 0xF00000000⟩,
    ⟨"SEND_HEX", 0x800000000, 0xF00000000⟩,
    ⟨"SEGMENT_TEST", 0x900000000, 0xF00000000⟩,
    ⟨"(reserved)", 0xA00000000, 0xE00000000⟩,
    ⟨"(reserved)", 0xC00000000, 0xC00000000⟩ ]

/-- The word lies in the row. -/
def OpcodeRow.covers (r : OpcodeRow) (w : CmdWord) : Bool := w &&& r.mask == r.pattern

/-- The 36-bit command word whose bits the table numbers as `w` (bit 0 least significant, R6), the bits above `nbits`
zero; none when a bit above bit 35 is set, since no such word crosses the command port (R60). -/
def tableWord (nbits w : Nat) : Option CmdWord :=
  if w % 2 ^ nbits < 2 ^ 36 then some (BitVec.ofNat 36 (w % 2 ^ nbits)) else none

/-- The instruction the decoder reads from a word given in the opcode table's bit numbering. A command transfers as
one parallel word (R48), so no byte order comes in. -/
def decodeTableWord (nbits w : Nat) : Option Instr := (tableWord nbits w).map decode

end Sys2Proof
end

