-- ==== Sys2Proof/Config.lean ====
section
/-! DEFINITION. The parameters that 00_scope.md R5 marks OPEN or per instance. Each is a constant with no body:
no proof can see a value of it, so a statement proved of the model holds for every value.
`P_SEGTEST_HOLD` and `P_TIMING` have no constant: no rule reads them and the model has no time (R191).
`P_RESET_BUSY` has none either: the model refuses that case (60_exceptions.md R162). -/

namespace Sys2Proof.Config

/-- `P_RAW_ADDR`, the raw device address this instance is built with (00_scope.md R5, 93_implementation_defined.md U10).
It is the value on `raw_addr` at the reset that `State.reset` stands for; assumption 5. -/
opaque rawAddr : BitVec 8

/-- `P_SEGTEST_MASK`, the bits SEGMENT_TEST forces on (00_scope.md R5, 93_implementation_defined.md U7).
The spec's default 0x08 is general knowledge, so no value is fixed here; assumption 6. -/
opaque segtestMask : Byte

/-- `P_REAL_OOR(ARG, DP)`, the 16-bit result of a real-to-integer conversion whose product is NaN or outside
(-1, 65536) (41_decomposer.md R95, 92_eei_decisions.md D13): any value, as a function of the operand and `DP`;
assumption 7. -/
opaque realOor : Arg → Places → BitVec 16

end Sys2Proof.Config
end

