-- ==== Sys2Proof/Machine/Binary32.lean ====
section
/-! DEFINITION. IEEE 754 binary32 as far as 41_decomposer.md R95 and 30_encoding.md R67 use it: reading a pattern,
one correctly rounded multiply (to nearest, ties to even), truncation, and writing a pattern. The rules of IEEE 754
are PRESUMED (general knowledge, 93_implementation_defined.md GK3); assumption 8.

Every finite binary32 value is a whole number of units of 2^-149, the smallest subnormal, so a magnitude is a `Nat`
count of that unit and no exponent appears. -/

namespace Sys2Proof.Machine

/-- A binary32 value. The payload of a NaN is not kept: no rule reads it. -/
inductive F32 where
  | nan
  | inf (neg : Bool)
  /-- The value `mag * 2^-149`, negated when `neg`; zero keeps its sign. -/
  | fin (neg : Bool) (mag : Nat)
  deriving DecidableEq, Repr

/-- The number of units of 2^-149 in 1.0. -/
def f32One : Nat := 2 ^ 149

/-- The magnitude 2^128, in units of 2^-149: the first one binary32 cannot hold. -/
def f32Limit : Nat := 2 ^ 128 * 2 ^ 149

/-- `f32(v)`: the value of a pattern (00_scope.md R7): sign bit 31, exponent bits 30..23, fraction bits 22..0. -/
def F32.ofBits (b : BitVec 32) : F32 :=
  let neg := b.getLsbD 31
  let e := (b.extractLsb' 23 8).toNat
  let f := (b.extractLsb' 0 23).toNat
  if e = 255 then (if f = 0 then .inf neg else .nan)
  else if e = 0 then .fin neg f
  else .fin neg ((2 ^ 23 + f) * 2 ^ (e - 1))

/-- The number of bits of `n` up to its most significant one. -/
def bitLength (n : Nat) : Nat := if n = 0 then 0 else n.log2 + 1

/-- The pattern of a binary32 value whose magnitude has at most 24 significant bits. A NaN is written as the quiet
pattern 0x7FC00000. -/
def F32.toBits : F32 → BitVec 32
  | .nan => 0x7FC00000
  | .inf neg => BitVec.ofBool neg ++ 0xFF#8 ++ 0#23
  | .fin neg mag =>
    let q := bitLength mag - 24
    if mag < 2 ^ 23 then BitVec.ofBool neg ++ 0#8 ++ BitVec.ofNat 23 mag
    else BitVec.ofBool neg ++ BitVec.ofNat 8 (q + 1) ++ BitVec.ofNat 23 (mag / 2 ^ q)

/-- The integer nearest to `n / d`, the even one of two equally near (`d` > 0). -/
def roundQuotient (n d : Nat) : Nat :=
  let q := n / d
  let r := n % d
  if 2 * r < d then q else if d < 2 * r then q + 1 else q + q % 2

/-- The binary32 value nearest to `n / d` units of 2^-149, ties to even: 24 significant bits, no finer than one unit,
and infinity from 2^128 on. -/
def roundF32 (neg : Bool) (n d : Nat) : F32 :=
  let q := bitLength (n / d) - 24
  let mag := roundQuotient n (d * 2 ^ q) * 2 ^ q
  if f32Limit ≤ mag then .inf neg else .fin neg mag

/-- `mul_f32_rne`: the exact product rounded once (R95). The product of two counts of 2^-149 is a count of 2^-298. -/
def F32.mul : F32 → F32 → F32
  | .nan, _ => .nan
  | _, .nan => .nan
  | .inf a, .inf b => .inf (a ^^ b)
  | .inf a, .fin b m => if m = 0 then .nan else .inf (a ^^ b)
  | .fin a m, .inf b => if m = 0 then .nan else .inf (a ^^ b)
  | .fin a m, .fin b n => roundF32 (a ^^ b) (m * n) f32One

/-- `p <= -1.0`, false of a NaN. -/
def F32.leNegOne : F32 → Bool
  | .nan => false
  | .inf neg => neg
  | .fin neg mag => neg && decide (f32One ≤ mag)

/-- `p >= 65536.0`, false of a NaN. -/
def F32.geTwo16 : F32 → Bool
  | .nan => false
  | .inf neg => !neg
  | .fin neg mag => !neg && decide (65536 * f32One ≤ mag)

/-- `trunc(p)`, toward zero; a NaN or an infinity has none. -/
def F32.trunc : F32 → Option Int
  | .nan => none
  | .inf _ => none
  | .fin neg mag => some (if neg then -((mag / f32One : Nat) : Int) else ((mag / f32One : Nat) : Int))

/-- The conversion to an unsigned 16-bit integer where R95 fixes it: `trunc(p)` when -1 < p < 65536, otherwise (NaN
and the infinities among them) none. -/
def F32.toU16 (p : F32) : Option (BitVec 16) :=
  if p = .nan ∨ p.leNegOne ∨ p.geTwo16 then none else p.trunc.map (BitVec.ofInt 16)

end Sys2Proof.Machine
end

