-- ==== Sys2Proof/Machine/Operands.lean ====
section
/-! DEFINITION. Every reading of the operand field that 30_encoding.md R62 gives. Nothing is scaled or shifted. -/

namespace Sys2Proof.Machine

/-- `zext_32(v)`: the pattern as an unsigned integer (00_scope.md R7). -/
def zext32 (arg : Arg) : Nat := arg.toNat

/-- `sext_32(v)`: the pattern as a two's complement integer (00_scope.md R7). -/
def sext32 (arg : Arg) : Int := arg.toInt

/-- `f32(v)`: the pattern as a binary32 value (00_scope.md R7). -/
def f32 (arg : Arg) : F32 := F32.ofBits arg

/-- A brightness level (42_config_commands.md R110, 10_state.md R22). -/
inductive Level where
  | low
  | medium
  | high
  deriving DecidableEq, Repr

/-- The level operand of SET_BRIGHTNESS: 0 LOW, 1 MEDIUM, 2 HIGH, every other value unrecognized (R62). -/
def levelOperand (arg : Arg) : Option Level :=
  match zext32 arg with
  | 0 => some .low
  | 1 => some .medium
  | 2 => some .high
  | _ => none

/-- The boolean operand of SET_DIGIT_ORDER: `ARG != 0` (R62). -/
def reversedOperand (arg : Arg) : Bool := arg != 0

/-- The stored value of the SET_DECIMAL_PLACES operand: `n` when 0 ≤ n ≤ 4, else 0 (R62, 42_config_commands.md R114). -/
def placesOperand (arg : Arg) : Places :=
  let n := sext32 arg
  if h : 0 ≤ n ∧ n ≤ 4 then ⟨n.toNat, by omega⟩ else 0

end Sys2Proof.Machine
end

