-- ==== Sys2Proof/Machine/Decomposer.lean ====
section
/-! DEFINITION. The number decomposer (41_decomposer.md): base 10, base 16, and the fixed-point mapping. All
arithmetic is on mathematical integers with floor `div` and `mod` (00_scope.md R7). -/

namespace Sys2Proof.Machine

/-- `decomposeDecimal(v)` (R90): base, tens, hundreds, thousands of the floor remainder of `v` modulo 10000. -/
def decomposeDecimal (v : Int) : List Digit :=
  let r := (v % 10000).toNat
  [ BitVec.ofNat 4 (r % 10), BitVec.ofNat 4 (r / 10 % 10), BitVec.ofNat 4 (r / 100 % 10),
    BitVec.ofNat 4 (r / 1000 % 10) ]

/-- The repeat loop of R92 with at most `cap` iterations left; its body runs before the test. -/
def hexLoop : (cap : Nat) → (t : Nat) → List Digit
  | 0, _ => []
  | cap + 1, t => BitVec.ofNat 4 (t % 16) :: if t / 16 = 0 then [] else hexLoop cap (t / 16)

/-- `decomposeHex(v)` (R92): the nibbles of `v mod 0x10000`, least significant first, at least one and at most four. -/
def decomposeHex (v : Nat) : List Digit := hexLoop 4 (v % 0x10000)

/-- `scaledInt(m, DP) = m * 10^DP`, exact (R94). -/
def scaledInt (m : Int) (dp : Places) : Int := m * 10 ^ dp.val

/-- `P10F`, the binary32 patterns of 1.0, 10.0, 100.0, 1000.0 and 10000.0 (R95). -/
def p10f (dp : Places) : BitVec 32 :=
  match dp with
  | 0 => 0x3F800000
  | 1 => 0x41200000
  | 2 => 0x42C80000
  | 3 => 0x447A0000
  | 4 => 0x461C4000

/-- The product `p` of R95: `x * 10^DP` by one binary32 multiply. -/
def realProduct (arg : Arg) (dp : Places) : F32 := (f32 arg).mul (f32 (p10f dp))

/-- `scaledReal(ARG, DP)` (R95): the product truncated toward zero when it lies in (-1, 65536); otherwise, and for a
NaN, the open `P_REAL_OOR(ARG, DP)`. -/
def scaledReal (arg : Arg) (dp : Places) : BitVec 16 :=
  match (realProduct arg dp).toU16 with
  | some v => v
  | none => Config.realOor arg dp

end Sys2Proof.Machine
end

