-- ==== Sys2Proof/Machine/Encoder.lean ====
section
/-! DEFINITION. The encoder unit (40_encoder.md): the lookup-table ROM, the decimal-point overlay, and their
composition. -/

namespace Sys2Proof.Machine

/-- The lookup-table ROM, 16 entries of 8 bits, read-only (20_memory.md R40, 40_encoder.md R80). -/
def lut : Vector Byte 16 :=
  #v[0x3F#8, 0x06, 0x5B, 0x4F, 0x66, 0x6D, 0x7D, 0x07, 0x7F, 0x6F, 0x77, 0x7C, 0x39, 0x5E, 0x79, 0x71]

/-- `encode(d) = LUT[d]` (R81). The index is 4 bits wide, so a read never faults. -/
def encodeDigit (d : Digit) : Byte := lut[d.toNat]'(d.isLt)

/-- `overlayDecimalPoint(b) = b | 0x80` (R82). -/
def overlayDecimalPoint (b : Byte) : Byte := b ||| 0x80

/-- `encUnit(d, p)` (R84). -/
def encUnit (d : Digit) (p : Bool) : Byte :=
  if p then overlayDecimalPoint (encodeDigit d) else encodeDigit d

end Sys2Proof.Machine
end

