-- ==== Sys2Proof/Machine/State.lean ====
section
/-! DEFINITION. The state of the block as plain data: the configuration registers and the sequencer phase
(10_state.md R20 to R32), the environment the block waits on (20_memory.md R42 to R45), and the record of what it
has emitted (00_scope.md R11). The lookup-table ROM is a constant and stands in Machine/Encoder.lean (R40). -/

namespace Sys2Proof.Machine

/-- A transport or timer event (00_scope.md R8, 20_memory.md R44, R45). -/
inductive Ev where
  /-- `Begin(a)`: beginFrame to the 7-bit address `a`. -/
  | beginFrame (a : BusAddr)
  /-- `Write(b)`: writeByte of `b`. -/
  | writeByte (b : Byte)
  /-- `End`: endFrame. -/
  | endFrame
  /-- `Hold`: start the segment-test hold. -/
  | hold
  deriving DecidableEq, Repr

/-- The sequencer phase `SEQ`, with the events of the current command not yet emitted (10_state.md R28). -/
inductive Phase where
  /-- No command in progress. -/
  | idle
  /-- Emitting events; the head of `pend` is next. -/
  | busy (pend : List Ev)
  /-- An `End` was emitted; waiting for `frame_done`. -/
  | awaitDone (pend : List Ev)
  /-- A `Hold` was emitted; waiting for `hold_expired`. -/
  | awaitTimer (pend : List Ev)
  deriving DecidableEq, Repr

/-- The configuration registers (10_state.md R20). -/
structure Cfg where
  /-- `CMD`, the command byte (R21). -/
  cmd : Byte
  /-- `MUX_EN`, multiplex enabled (R23). -/
  muxEn : Bool
  /-- `REV`, digit order reversed (R25). -/
  rev : Bool
  /-- `DP`, decimal places: 3 bits whose only values are 0 to 4 (R26). -/
  dp : Places
  /-- `ADDR`, the bus address of the controller (R29). -/
  addr : BusAddr
  deriving DecidableEq, Repr

/-- The levels on the block's input ports during one step (20_memory.md R42). Two ports may be active together
(60_exceptions.md R162). -/
structure Pins where
  /-- `rst`. -/
  rst : Bool
  /-- `raw_addr[7:0]`. -/
  rawAddr : BitVec 8
  /-- `cmd_valid`. -/
  cmdValid : Bool
  /-- `cmd_word[35:0]`. -/
  cmdWord : CmdWord
  /-- The transport accepts the event offered to it (R46 `emit`). DESIGN CHOICE, assumption 13. -/
  transportAccepts : Bool
  /-- The hold timer accepts the `Hold` offered to it (R46 `emit`). DESIGN CHOICE, assumption 13. -/
  timerAccepts : Bool
  /-- `frame_done`. -/
  frameDone : Bool
  /-- `hold_expired`. -/
  holdExpired : Bool
  deriving DecidableEq, Repr

/-- The machine: the block, its environment's coming inputs, and the events it has emitted. -/
structure State where
  /-- The configuration registers. -/
  cfg : Cfg
  /-- The sequencer phase `SEQ`. -/
  seq : Phase
  /-- The block has been reset at least once (10_state.md R32, 60_exceptions.md R172). DEDUCED, assumption 10. -/
  hasBeenReset : Bool
  /-- MODEL'S OWN: the environment's inputs of the coming steps, the next first. Past the end the environment is
  silent. Nothing constrains the list, so a statement about every state is one about every environment. DESIGN CHOICE,
  assumption 1. -/
  inputs : List Pins
  /-- MODEL'S OWN: every event emitted so far, oldest first: the observation of a run (00_scope.md R11). DESIGN CHOICE,
  assumption 2. -/
  sent : List Ev
  deriving DecidableEq, Repr

/-- "Fault: none; the block has no fault" (60_exceptions.md R172): the type is empty, so no step can end in one. -/
inductive Fault where
  deriving DecidableEq, Repr

/-- Why the model gives a run no meaning (60_exceptions.md R172). Every one errs toward unprovable. -/
inductive Refusal where
  /-- Raised by exec for a command that has no meaning yet; none is left. Safe. -/
  | notModelled (mnemonic : String)
  /-- Raised by the meanings of the two reserved rows: "The hardware's response to a reserved word is unspecified"
  (30_encoding.md R64). Safe. -/
  | reservedWord (op : Opcode) (arg : Arg)
  /-- Raised by step when `rst` is asserted while `SEQ` is not `Idle`, the open `P_RESET_BUSY` (60_exceptions.md
  R162). Safe. -/
  | resetWhileBusy
  /-- Raised by step when a command is presented before the first reset (10_state.md R32, 60_exceptions.md R172).
  Safe. -/
  | commandBeforeReset
  deriving DecidableEq, Repr

/-- The outcome of a step of this machine. -/
abbrev Outcome := Host.Outcome State Fault Refusal

/-- The state right after a reset with `P_RAW_ADDR` on `raw_addr` (70_reset_and_hazards.md R180, R181): `CMD` 0x00,
`MUX_EN` 0, `REV` 0, `DP` 0, `ADDR` = `P_RAW_ADDR[7:1]`, `SEQ` `Idle`. The environment is silent and nothing has been
emitted (R182). -/
def State.reset : State where
  cfg := { cmd := 0x00, muxEn := false, rev := false, dp := 0, addr := Config.rawAddr.extractLsb' 1 7 }
  seq := .idle
  hasBeenReset := true
  inputs := []
  sent := []

end Sys2Proof.Machine
end

