-- ==== Sys2Proof/Machine/Flags.lean ====
section
/-! DEFINITION. The block has no status flags, condition codes, predicates, error bits or sticky bits (10_state.md
R30), so no flag computation exists. What stands here is the arithmetic on the fields of the command byte `CMD` (R21,
R22) and the views derived from the configuration (R24). -/

namespace Sys2Proof.Machine

/-- The brightness bits of a level, LOW for an unrecognized one (42_config_commands.md R110). -/
def brightnessBits : Option Level → Byte
  | some .high => 0x40
  | some .medium => 0x20
  | some .low => 0x10
  | none => 0x10

/-- `(CMD & 0x8F) | bits`: the three brightness bits replaced (R110). -/
def setBrightnessBits (cmd bits : Byte) : Byte := (cmd &&& 0x8F) ||| bits

/-- `CMD | 0x07` (R111). -/
def setMuxBits (cmd : Byte) : Byte := cmd ||| 0x07

/-- `CMD & 0xF8` (R112). -/
def clearMuxBits (cmd : Byte) : Byte := cmd &&& 0xF8

/-- The field `BRT = CMD[6:4]` (10_state.md R21). -/
def brtField (cmd : Byte) : BitVec 3 := cmd.extractLsb' 4 3

/-- The field `MUXB = CMD[2:0]` (10_state.md R21). -/
def muxbField (cmd : Byte) : BitVec 3 := cmd.extractLsb' 0 3

/-- The source's `brightnessLevel`, a view of `CMD[6:4]`; none is "no level set" (10_state.md R22). -/
def Cfg.brightnessLevel (c : Cfg) : Option Level :=
  match (brtField c.cmd).toNat with
  | 4 => some .high
  | 2 => some .medium
  | 1 => some .low
  | _ => none

/-- The active digit count `ADC`, derived from `MUX_EN` (10_state.md R24). -/
def Cfg.adc (c : Cfg) : Nat := if c.muxEn then 4 else 2

end Sys2Proof.Machine
end

