-- ==== Sys2Proof/Machine/Ops.lean ====
section
/-! DEFINITION. The named operations over the state: configuration writes, frames and digit order
(43_display_commands.md R130, R131, R133), accepting a command, the sequencer's moves (20_memory.md R46), reset
(70_reset_and_hazards.md R180), and which move the inputs of a step enable (60_exceptions.md R162). The block takes no
exception, so there is no entry and no return (60_exceptions.md R160, R163, R164), and it has no data memory
(20_memory.md R41). -/

namespace Sys2Proof.Machine

/-! ## Configuration writes -/

/-- Writes `CMD`. -/
def Cfg.withCmd (c : Cfg) (cmd : Byte) : Cfg := { c with cmd := cmd }

/-- Writes `CMD` and `MUX_EN` together (42_config_commands.md R111, R112). -/
def Cfg.withMux (c : Cfg) (cmd : Byte) (muxEn : Bool) : Cfg := { c with cmd := cmd, muxEn := muxEn }

/-- Writes `REV`. -/
def Cfg.withRev (c : Cfg) (rev : Bool) : Cfg := { c with rev := rev }

/-- Writes `DP`. -/
def Cfg.withDp (c : Cfg) (dp : Places) : Cfg := { c with dp := dp }

/-! ## Frames -/

/-- Register-select value of the controller's command register (20_memory.md R51). -/
def selCommand : Byte := 0x00

/-- Register-select value of the controller's digit-data register (20_memory.md R51). -/
def selDigits : Byte := 0x01

/-- `Frame(rs, bytes)` (43_display_commands.md R130). -/
def Cfg.frame (c : Cfg) (rs : Byte) (bytes : List Byte) : List Ev :=
  Ev.beginFrame c.addr :: Ev.writeByte rs :: (bytes.map Ev.writeByte ++ [Ev.endFrame])

/-- `Order(B)` (43_display_commands.md R131): truncation to `ADC`, then reversal when `REV` is set. -/
def Cfg.order (c : Cfg) (b : List Byte) : List Byte :=
  let sent := b.take c.adc
  if c.rev then sent.reverse else sent

/-- `dpPos(DP)`: the digit position that gets the decimal point; none for 0 and 4 (43_display_commands.md R133). -/
def dpPos (dp : Places) : Option Nat :=
  match dp with
  | 0 => none
  | 1 => some 1
  | 2 => some 2
  | 3 => some 3
  | 4 => none

/-- `B[k] = encUnit(d[k], dpPos(DP) == k)`: the segment bytes of a decimal value (43_display_commands.md R134, R135). -/
def decimalBytes (scaled : Int) (dp : Places) : List Byte :=
  (decomposeDecimal scaled).mapIdx fun k d => encUnit d (dpPos dp == some k)

/-- `B[k] = (k < len) ? encode(h[k]) : 0x00`: the segment bytes of a hex value (43_display_commands.md R136). -/
def hexBytes (v : Nat) : List Byte :=
  (List.range 4).map fun k =>
    match (decomposeHex v)[k]? with
    | some d => encodeDigit d
    | none => 0x00

/-! ## Accepting a command -/

/-- The phase with the events `evs` left to emit: `(evs == []) ? Idle : Busy(evs)` (20_memory.md R46). -/
def Phase.ofEvents (evs : List Ev) : Phase := if evs = [] then .idle else .busy evs

/-- `accept` of 20_memory.md R46, with `Exec` the command's function of the configuration: it answers the new
configuration and the events to emit. A command transfers only in `Idle`; in any other phase it waits and has no
effect, neither queued nor dropped (R43; DEDUCED, assumption 12). -/
def State.accept (s : State) (Exec : Cfg → Cfg × List Ev) : Outcome :=
  if s.seq = .idle then .next { s with cfg := (Exec s.cfg).1, seq := Phase.ofEvents (Exec s.cfg).2 } else .next s

/-! ## The sequencer's moves and reset -/

/-- The input levels of the coming step; past the end of `inputs` every port is inactive. -/
def State.pins (s : State) : Pins :=
  match s.inputs with
  | [] =>
    { rst := false, rawAddr := 0, cmdValid := false, cmdWord := 0, transportAccepts := false, timerAccepts := false,
      frameDone := false, holdExpired := false }
  | p :: _ => p

/-- The step's inputs are over. -/
def State.tick (s : State) : State := { s with inputs := s.inputs.tail }

/-- `cmd_ready`: 1 exactly when `SEQ = Idle` and reset is not asserted (20_memory.md R43). -/
def State.cmdReady (s : State) : Bool := s.seq == .idle && !s.pins.rst

/-- The environment accepts the event offered to it: the timer a `Hold`, the transport any other (20_memory.md R46). -/
def Pins.accepts (p : Pins) : Ev → Bool
  | .hold => p.timerAccepts
  | .beginFrame _ => p.transportAccepts
  | .writeByte _ => p.transportAccepts
  | .endFrame => p.transportAccepts

/-- The phase after event `e` left, with `rest` to come (20_memory.md R46 `emit`). -/
def Phase.afterEmit (e : Ev) (rest : List Ev) : Phase :=
  match e with
  | .endFrame => .awaitDone rest
  | .hold => .awaitTimer rest
  | .beginFrame _ => .busy rest
  | .writeByte _ => .busy rest

/-- `emit` of 20_memory.md R46. -/
def State.emit (s : State) (e : Ev) (rest : List Ev) : State :=
  { s with seq := Phase.afterEmit e rest, sent := s.sent ++ [e] }

/-- `done` and `expire` of 20_memory.md R46: the wait is over. -/
def State.resume (s : State) (rest : List Ev) : State := { s with seq := Phase.ofEvents rest }

/-- `ADDR = P_RAW_ADDR[7:1]` (70_reset_and_hazards.md R181). -/
def addrOfRaw (raw : BitVec 8) : BusAddr := raw.extractLsb' 1 7

/-- Reset with `raw` on `raw_addr` (70_reset_and_hazards.md R180); it emits no event (R182). -/
def State.resetBy (s : State) (raw : BitVec 8) : State :=
  { s with
    cfg := { cmd := 0x00, muxEn := false, rev := false, dp := 0, addr := addrOfRaw raw }
    seq := .idle
    hasBeenReset := true }

/-- What one step does. At most one move is enabled in any state (60_exceptions.md R162). -/
inductive Move where
  /-- The block is held in reset (R180). -/
  | reset (raw : BitVec 8)
  /-- The presented command runs: it transfers, or it is a reserved word. -/
  | run (i : Instr)
  /-- `emit` (R46). -/
  | emit (e : Ev) (rest : List Ev)
  /-- `done` or `expire` (R46). -/
  | resume (rest : List Ev)
  /-- Nothing is enabled: the block waits (60_exceptions.md R172). -/
  | wait
  /-- The run has no meaning (60_exceptions.md R172). -/
  | refuse (r : Refusal)
  deriving DecidableEq, Repr

/-- The move of the phase alone, with no reset and no command (60_exceptions.md R162 (3)). `Busy([])` never occurs (R46);
assumption 14. -/
def State.phaseMove (s : State) : Move :=
  match s.seq with
  | .idle => .wait
  | .busy [] => .wait
  | .busy (e :: rest) => if s.pins.accepts e then .emit e rest else .wait
  | .awaitDone rest => if s.pins.frameDone then .resume rest else .wait
  | .awaitTimer rest => if s.pins.holdExpired then .resume rest else .wait

/-- The enabled move, in the priority of 60_exceptions.md R162: `rst` wins over everything (refused while a command is
in progress); before the first reset nothing else moves and a command is refused (10_state.md R32); a presented command
runs in `Idle`, and a presented reserved word, which no host may present, is refused in every phase (30_encoding.md
R64; DEDUCED, assumption 4); otherwise the phase moves. -/
def State.nextMove (s : State) : Move :=
  if s.pins.rst then
    if s.hasBeenReset ∧ s.seq ≠ .idle then .refuse .resetWhileBusy else .reset s.pins.rawAddr
  else if ¬ s.hasBeenReset then
    if s.pins.cmdValid then .refuse .commandBeforeReset else .wait
  else if s.pins.cmdValid ∧ (s.seq = .idle ∨ (decode s.pins.cmdWord).isReserved) then .run (decode s.pins.cmdWord)
  else s.phaseMove

end Sys2Proof.Machine
end

