-- ==== Sys2Proof/Machine/ConfigCommands.lean ====
section
/-! DEFINITION. The configuration commands (42_config_commands.md R110 to R114). Only SET_BRIGHTNESS emits a frame. -/

namespace Sys2Proof.Machine

/-- SET_BRIGHTNESS (R110): `CMD[6:4]` replaced, the updated byte sent to the command register. -/
def execSetBrightness (arg : Arg) (s : State) : Outcome :=
  s.accept fun c =>
    let cmd := setBrightnessBits c.cmd (brightnessBits (levelOperand arg))
    (c.withCmd cmd, c.frame selCommand [cmd])

/-- ENABLE_MUX (R111). -/
def execEnableMux (s : State) : Outcome := s.accept fun c => (c.withMux (setMuxBits c.cmd) true, [])

/-- DISABLE_MUX (R112). -/
def execDisableMux (s : State) : Outcome := s.accept fun c => (c.withMux (clearMuxBits c.cmd) false, [])

/-- SET_DIGIT_ORDER (R113). -/
def execSetDigitOrder (arg : Arg) (s : State) : Outcome := s.accept fun c => (c.withRev (reversedOperand arg), [])

/-- SET_DECIMAL_PLACES (R114). -/
def execSetDecimalPlaces (arg : Arg) (s : State) : Outcome := s.accept fun c => (c.withDp (placesOperand arg), [])

end Sys2Proof.Machine
end

