-- ==== Sys2Proof/Machine/DisplayCommands.lean ====
section
/-! DEFINITION. The display commands (43_display_commands.md R132 to R137). None writes a configuration register
(R138). -/

namespace Sys2Proof.Machine

/-- CLEAR (R132): `ADC` zero bytes to the digit-data register, in no order. -/
def execClear (s : State) : Outcome :=
  s.accept fun c => (c, c.frame selDigits (List.replicate c.adc 0x00))

/-- SEND_DEC (R134). -/
def execSendDec (arg : Arg) (s : State) : Outcome :=
  s.accept fun c => (c, c.frame selDigits (c.order (decimalBytes (scaledInt (sext32 arg) c.dp) c.dp)))

/-- SEND_DEC_REAL (R135). -/
def execSendDecReal (arg : Arg) (s : State) : Outcome :=
  s.accept fun c => (c, c.frame selDigits (c.order (decimalBytes (scaledReal arg c.dp).toNat c.dp)))

/-- SEND_HEX (R136): `DP` is ignored. -/
def execSendHex (arg : Arg) (s : State) : Outcome :=
  s.accept fun c => (c, c.frame selDigits (c.order (hexBytes (zext32 arg))))

/-- SEGMENT_TEST (R137): the forced copy, the hold, the normal command byte; `CMD` keeps its value. -/
def execSegmentTest (s : State) : Outcome :=
  s.accept fun c =>
    (c, c.frame selCommand [c.cmd ||| Config.segtestMask] ++ [.hold] ++ c.frame selCommand [c.cmd])

end Sys2Proof.Machine
end

