-- ==== Sys2Proof/Machine/Reserved.lean ====
section
/-! DEFINITION. The two reserved rows of the opcode table (30_encoding.md R64): "A model refuses a reserved word". -/

namespace Sys2Proof.Machine

/-- Opcodes 0xA and 0xB (R64). The state is not read: the response is unspecified in every one. -/
def execReservedAB (op : Opcode) (arg : Arg) (_s : State) : Outcome := .refused (.reservedWord op arg)

/-- Opcodes 0xC to 0xF (R64). -/
def execReservedCF (op : Opcode) (arg : Arg) (_s : State) : Outcome := .refused (.reservedWord op arg)

end Sys2Proof.Machine
end

