-- ==== Sys2Proof/Machine/Dispatch.lean ====
section
/-! DEFINITION. The meaning of each command, one arm per constructor of Instr. -/

namespace Sys2Proof.Machine

/-- `Exec` and `accept` of 20_memory.md R46 for the command `i`. -/
def exec (i : Instr) (s : State) : Host.Outcome State Fault Refusal :=
  match i with
  | .setBrightness arg => Sys2Proof.Machine.execSetBrightness arg s
  | .enableMux => Sys2Proof.Machine.execEnableMux s
  | .disableMux => Sys2Proof.Machine.execDisableMux s
  | .setDigitOrder arg => Sys2Proof.Machine.execSetDigitOrder arg s
  | .setDecimalPlaces arg => Sys2Proof.Machine.execSetDecimalPlaces arg s
  | .clear => Sys2Proof.Machine.execClear s
  | .sendDec arg => Sys2Proof.Machine.execSendDec arg s
  | .sendDecReal arg => Sys2Proof.Machine.execSendDecReal arg s
  | .sendHex arg => Sys2Proof.Machine.execSendHex arg s
  | .segmentTest => Sys2Proof.Machine.execSegmentTest s
  | .reservedAB op arg => Sys2Proof.Machine.execReservedAB op arg s
  | .reservedCF op arg => Sys2Proof.Machine.execReservedCF op arg s

end Sys2Proof.Machine
end

