-- ==== Sys2Proof/Machine/Step.lean ====
section
/-! DEFINITION. One step: the one move that the coming inputs enable (20_memory.md R46, 60_exceptions.md R162). -/

namespace Sys2Proof.Machine

/-- One step of the machine. Every move uses up one element of `inputs`. -/
def step (s : State) : Host.Outcome State Fault Refusal :=
  match s.nextMove with
  | .reset raw => .next (s.tick.resetBy raw)
  | .run i => exec i s.tick
  | .emit e rest => .next (s.tick.emit e rest)
  | .resume rest => .next (s.tick.resume rest)
  | .wait => .next s.tick
  | .refuse r => .refused r

/-- `s` with the host presenting a command word, ready for the next step to take it: the block has been reset and is
in `Idle`, reset is not asserted, and the word stands on the command port ahead of the inputs `s` had (20_memory.md
R43; assumption 3). A word of the opcode table has 36 bits, of which `nbits` are given. -/
def State.withFetchWord (s : State) (nbits w : Nat) : State :=
  { s with
    seq := .idle
    hasBeenReset := true
    inputs :=
      { rst := false, rawAddr := 0, cmdValid := true, cmdWord := BitVec.ofNat 36 (w % 2 ^ nbits),
        transportAccepts := false, timerAccepts := false, frameDone := false, holdExpired := false } :: s.inputs }

end Sys2Proof.Machine
end

