-- ==== Sys2Proof/Machine/Assembler.lean ====
section
/-! DEFINITION. The command-stream syntax of 30_encoding.md R67 and the pseudo-instructions of R68. They have no effect
on the block (92_eei_decisions.md D28); assumption 11 says what R67 leaves open. -/

namespace Sys2Proof.Machine

/-- The value of a digit character in base 10 or 16. -/
def digitValue (base : Nat) (c : Char) : Option Nat :=
  let v :=
    if '0' ≤ c ∧ c ≤ '9' then c.toNat - '0'.toNat
    else if 'A' ≤ c ∧ c ≤ 'F' then c.toNat - 'A'.toNat + 10
    else if 'a' ≤ c ∧ c ≤ 'f' then c.toNat - 'a'.toNat + 10
    else 16
  if v < base then some v else none

/-- A number written with at least one digit, added after the digits already read in `acc`. -/
def parseDigits (base : Nat) : (acc : Nat) → List Char → Option Nat
  | _, [] => none
  | acc, [c] => (digitValue base c).map (acc * base + ·)
  | acc, c :: cs => (digitValue base c).bind fun v => parseDigits base (acc * base + v) cs

/-- An `<int>` of R67: decimal, perhaps negative, or hex after `0x`. -/
def parseInt : List Char → Option Int
  | '-' :: cs => (parseDigits 10 0 cs).map fun n => -(n : Int)
  | '0' :: 'x' :: cs => (parseDigits 16 0 cs).map fun n => (n : Int)
  | cs => (parseDigits 10 0 cs).map fun n => (n : Int)

/-- The operand field of an integer in [-2^31, 2^32-1]: its value modulo 2^32 (R67). -/
def argOfInt (n : Int) : Option Arg := if -2 ^ 31 ≤ n ∧ n < 2 ^ 32 then some (BitVec.ofInt 32 n) else none

/-- `<int>` without the `#`. -/
def bareIntOperand (cs : List Char) : Option Arg := (parseInt cs).bind argOfInt

/-- `#<int>` (R67). -/
def intOperand : List Char → Option Arg
  | '#' :: cs => bareIntOperand cs
  | _ => none

/-- The level of SET_BRIGHTNESS: `LOW`, `MEDIUM`, `HIGH` or `#<int>` (R67). -/
def levelText (cs : List Char) : Option Arg :=
  if cs = "LOW".toList then some 0
  else if cs = "MEDIUM".toList then some 1
  else if cs = "HIGH".toList then some 2
  else intOperand cs

/-- The order of SET_DIGIT_ORDER: `FORWARD`, `REVERSED` or `#<int>` (R67). -/
def orderText (cs : List Char) : Option Arg :=
  if cs = "FORWARD".toList then some 0
  else if cs = "REVERSED".toList then some 1
  else intOperand cs

/-- The binary32 pattern nearest to `±(whole + frac / 10^places)`, ties to even (R67). -/
def realPattern (neg : Bool) (whole frac places : Nat) : Arg :=
  (roundF32 neg ((whole * 10 ^ places + frac) * f32One) (10 ^ places)).toBits

/-- A decimal real literal without its sign: digits, a point, digits (R67). -/
def parseReal (neg : Bool) (cs : List Char) : Option Arg :=
  let whole := cs.takeWhile (· != '.')
  let frac := (cs.dropWhile (· != '.')).tail
  match parseDigits 10 0 whole, parseDigits 10 0 frac with
  | some w, some f => some (realPattern neg w f frac.length)
  | _, _ => none

/-- The operand of SEND_DEC_REAL: a decimal real literal, or `#0x` and eight hex digits for a raw pattern (R67). Whether
the general `#<int>` (decimal, or hex of another length) is an operand of it too, R67 leaves open; it is not taken here:
DESIGN CHOICE, assumption 11. -/
def realText : List Char → Option Arg
  | '#' :: '0' :: 'x' :: cs => if cs.length = 8 then (parseDigits 16 0 cs).map (BitVec.ofNat 32) else none
  | '-' :: cs => parseReal true cs
  | cs => parseReal false cs

/-- The pseudo-instructions of R68, with their operands as operand fields. -/
inductive Pseudo where
  | init4 (level : Arg)
  | init2 (level : Arg)
  | showFixed (real places : Arg)
  | showInt (int : Arg)
  deriving DecidableEq, Repr

/-- The fixed expansion of a pseudo-instruction (R68). -/
def Pseudo.expand : Pseudo → List Instr
  | .init4 level => [.enableMux, .setBrightness level]
  | .init2 level => [.disableMux, .setBrightness level]
  | .showFixed real places => [.setDecimalPlaces places, .sendDecReal real]
  | .showInt int => [.setDecimalPlaces 0, .sendDec int]

/-- The words of a line: separated by blanks, a comma standing alone; `word` is the word being read, reversed. -/
def splitWords : (word : List Char) → List Char → List (List Char)
  | word, [] => if word = [] then [] else [word.reverse]
  | word, c :: cs =>
    let done := if word = [] then [] else [word.reverse]
    if c = ' ' ∨ c = '\t' then done ++ splitWords [] cs
    else if c = ',' then done ++ [[',']] ++ splitWords [] cs
    else splitWords (c :: word) cs

/-- The commands one line stands for, given its words; none when the line is not of R67's or R68's form. -/
def assembleWords : List (List Char) → Option (List Instr)
  | [] => some []
  | [m] =>
    if m = "ENABLE_MUX".toList then some [.enableMux]
    else if m = "DISABLE_MUX".toList then some [.disableMux]
    else if m = "CLEAR".toList then some [.clear]
    else if m = "SEGMENT_TEST".toList then some [.segmentTest]
    else none
  | [m, a] =>
    if m = "SET_BRIGHTNESS".toList then (levelText a).map fun x => [.setBrightness x]
    else if m = "SET_DIGIT_ORDER".toList then (orderText a).map fun x => [.setDigitOrder x]
    else if m = "SET_DECIMAL_PLACES".toList then (intOperand a).map fun x => [.setDecimalPlaces x]
    else if m = "SEND_DEC".toList then (intOperand a).map fun x => [.sendDec x]
    else if m = "SEND_DEC_REAL".toList then (realText a).map fun x => [.sendDecReal x]
    else if m = "SEND_HEX".toList then (intOperand a).map fun x => [.sendHex x]
    else if m = "INIT4".toList then (levelText a).map fun x => (Pseudo.init4 x).expand
    else if m = "INIT2".toList then (levelText a).map fun x => (Pseudo.init2 x).expand
    else if m = "SHOW_INT".toList then (bareIntOperand a).map fun x => (Pseudo.showInt x).expand
    else none
  | [m, a, [','], b] =>
    if m = "SHOW_FIXED".toList then
      match realText a, bareIntOperand b with
      | some x, some n => some (Pseudo.showFixed x n).expand
      | _, _ => none
    else none
  | _ => none

/-- The commands one line stands for (R67): `;` starts a comment, and a line of blanks stands for none. -/
def assembleLine (line : String) : Option (List Instr) :=
  assembleWords (splitWords [] (line.toList.takeWhile (· != ';')))

/-- A hex digit, written in capitals. -/
def hexDigit (d : BitVec 4) : Char := "0123456789ABCDEF".toList[d.toNat]'(d.isLt)

/-- A word written `0xO_AAAA_AAAA` (R67). -/
def wordText (w : CmdWord) : String :=
  let digit (i : Nat) : Char := hexDigit (w.extractLsb' (4 * i) 4)
  String.ofList ['0', 'x', digit 8, '_', digit 7, digit 6, digit 5, digit 4, '_', digit 3, digit 2, digit 1, digit 0]

end Sys2Proof.Machine
end

