-- ==== Sys2Proof/Safety.lean ====
section
/-! DEFINITION. What a run may rely on: the invariant of 10_state.md R31 together with the transport contract of
20_memory.md R44, the host's duties, and an environment that makes progress (60_exceptions.md R172). -/

namespace Sys2Proof.Machine

/-- The events of the current command not yet emitted (10_state.md R28). -/
def Phase.pend : Phase → List Ev
  | .idle => []
  | .busy pend => pend
  | .awaitDone pend => pend
  | .awaitTimer pend => pend

/-- 10_state.md R31 (a) to (d) for the configuration registers. -/
def Cfg.Inv (c : Cfg) : Prop :=
  (muxbField c.cmd = 0b111#3 ↔ c.muxEn = true) ∧ (muxbField c.cmd = 0b000#3 ↔ c.muxEn = false) ∧
  c.cmd.getLsbD 7 = false ∧ c.cmd.getLsbD 3 = false ∧
  (brtField c.cmd = 0b000#3 ∨ brtField c.cmd = 0b001#3 ∨ brtField c.cmd = 0b010#3 ∨ brtField c.cmd = 0b100#3) ∧
  c.dp.val ≤ 4

/-- How far into a frame a list of events has come. -/
inductive FramePos where
  /-- No frame is open. -/
  | boundary
  /-- After `Begin`: the register-select byte is next. -/
  | select
  /-- After register-select `rs` and `n` more bytes. -/
  | body (rs : Byte) (n : Nat)
  deriving DecidableEq, Repr

/-- One event of the transport contract (20_memory.md R44, R51): `Begin`, a register-select 0 or 1, one byte after 0
or an allowed number after 1, `End`; a `Hold` stands between frames only. None when the contract is broken. -/
def FramePos.next (okAddr : BusAddr → Bool) (okLength : Nat → Bool) (p : FramePos) (e : Ev) : Option FramePos :=
  match p, e with
  | .boundary, .beginFrame a => if okAddr a then some .select else none
  | .boundary, .hold => some .boundary
  | .select, .writeByte rs => if rs = selCommand ∨ rs = selDigits then some (.body rs 0) else none
  | .body rs n, .writeByte _ => some (.body rs (n + 1))
  | .body rs n, .endFrame =>
    if (rs = selCommand ∧ n = 1) ∨ (rs = selDigits ∧ okLength n) then some .boundary else none
  | _, _ => none

/-- The position a list of events leads to. -/
def FramePos.after (okAddr : BusAddr → Bool) (okLength : Nat → Bool) : FramePos → List Ev → Option FramePos
  | p, [] => some p
  | p, e :: es => (FramePos.next okAddr okLength p e).bind fun q => FramePos.after okAddr okLength q es

/-- The events emitted so far keep the contract, for some address in each frame and 2 or 4 digit bytes. -/
def State.sentPos (s : State) : Option FramePos :=
  FramePos.after (fun _ => true) (fun n => n == 2 || n == 4) .boundary s.sent

/-- The pending events complete what has been emitted to whole frames to `ADDR` of `ADC` digit bytes. -/
def State.TransportOk (s : State) : Prop :=
  (s.sentPos.bind fun p => FramePos.after (· == s.cfg.addr) (· == s.cfg.adc) p s.seq.pend) = some .boundary

/-- The pending list fits the phase: `Busy([])` never occurs, a hold is always followed by a frame, every non-empty
list ends with `End` (20_memory.md R46), and a wait follows the event it waits for (10_state.md R28). -/
def State.PhaseOk (s : State) : Prop :=
  (s.seq.pend = [] ∨ s.seq.pend.getLast? = some .endFrame) ∧
  match s.seq with
  | .idle => True
  | .busy pend => pend ≠ []
  | .awaitDone _ => s.sent.getLast? = some .endFrame
  | .awaitTimer pend => pend ≠ [] ∧ s.sent.getLast? = some .hold

/-- The invariant every step keeps. Before its first reset the block has emitted nothing and nothing else is known. -/
def State.Inv (s : State) : Prop :=
  (s.hasBeenReset = false → s.sent = []) ∧
  (s.hasBeenReset = true → s.cfg.Inv ∧ s.TransportOk ∧ s.PhaseOk)

/-- The host's duties in a step: no reserved word is presented (30_encoding.md R64) and reset is asserted only in
`Idle` (60_exceptions.md R162). -/
def State.HostLegal (s : State) : Prop :=
  (s.pins.rst = true → s.seq = .idle) ∧
  (s.pins.cmdValid = true → (decode s.pins.cmdWord).isReserved = false)

/-- The inputs of a step in which the transport and the timer make progress and the host is silent. -/
def Pins.cooperative : Pins where
  rst := false
  rawAddr := 0
  cmdValid := false
  cmdWord := 0
  transportAccepts := true
  timerAccepts := true
  frameDone := true
  holdExpired := true

/-- The steps a list of events takes under a cooperative environment: one to emit each, and one more to see the wait
after each `End` and each `Hold` over. -/
def drainSteps : List Ev → Nat
  | [] => 0
  | .endFrame :: es => 2 + drainSteps es
  | .hold :: es => 2 + drainSteps es
  | .beginFrame _ :: es => 1 + drainSteps es
  | .writeByte _ :: es => 1 + drainSteps es

/-- The steps until `Idle` under a cooperative environment. -/
def Phase.drainSteps : Phase → Nat
  | .idle => 0
  | .busy pend => Machine.drainSteps pend
  | .awaitDone pend => 1 + Machine.drainSteps pend
  | .awaitTimer pend => 1 + Machine.drainSteps pend

end Sys2Proof.Machine
end

