-- ==== Sys2Proof/Certificates/Slice0/Obligations.lean ====
section
/-! DEFINITION. The statements for the provers. Each docstring names the rules of spec/ it formalises; where a clause
rests on a choice of the model, it names the assumption. -/

open Sys2Proof Sys2Proof.Machine

/-! ## The encoder unit (40_encoder.md) -/

/-- R80, R81: the ROM's sixteen bytes, and `encode(d) = LUT[d]`. -/
def Obligations.LookupTableContents : Prop :=
  lut.toList = [0x3F, 0x06, 0x5B, 0x4F, 0x66, 0x6D, 0x7D, 0x07, 0x7F, 0x6F, 0x77, 0x7C, 0x39, 0x5E, 0x79, 0x71] ∧
  ∀ d : Digit, encodeDigit d = lut[d.toNat]'d.isLt

/-- R85 (the spec's inference from R80): no entry lights the point, none is the blank byte, and `encode` is injective.
-/
def Obligations.LookupTableFacts : Prop :=
  (∀ d : Digit, (encodeDigit d).getLsbD 7 = false ∧ overlayDecimalPoint (encodeDigit d) ≠ encodeDigit d) ∧
  (∀ d : Digit, encodeDigit d ≠ 0x00) ∧
  (∀ d e : Digit, encodeDigit d = encodeDigit e → d = e)

/-- R82: the overlay sets bit 0x80, leaves every other bit, and is idempotent. -/
def Obligations.OverlaySetsOnlyThePointBit : Prop :=
  ∀ b : Byte,
    overlayDecimalPoint b = b ||| 0x80 ∧
    (overlayDecimalPoint b).getLsbD 7 = true ∧
    (∀ k, k < 7 → (overlayDecimalPoint b).getLsbD k = b.getLsbD k) ∧
    overlayDecimalPoint (overlayDecimalPoint b) = overlayDecimalPoint b

/-- R84: the encoder unit's output, bit by bit. -/
def Obligations.EncoderUnitOutput : Prop :=
  ∀ (d : Digit) (p : Bool),
    encUnit d p = (if p then overlayDecimalPoint (encodeDigit d) else encodeDigit d) ∧
    (encUnit d true).getLsbD 7 = true ∧
    (∀ k, k < 7 → (encUnit d true).getLsbD k = (lut[d.toNat]'d.isLt).getLsbD k)

/-! ## The decomposer (41_decomposer.md) -/

/-- R90: four digits, digit `k` the floor remainder modulo 10000 divided by `10^k`, modulo 10; and the input fits 46
bits of two's complement from either caller. -/
def Obligations.DecimalDigitsOfFloorRemainder : Prop :=
  (∀ v : Int, (decomposeDecimal v).length = 4 ∧
    ∀ k, k < 4 → (decomposeDecimal v)[k]? = some (BitVec.ofNat 4 ((v % 10000).toNat / 10 ^ k % 10))) ∧
  (∀ (arg : Arg) (dp : Places),
    -2 ^ 31 * 10 ^ 4 ≤ scaledInt (sext32 arg) dp ∧ scaledInt (sext32 arg) dp ≤ (2 ^ 31 - 1) * 10 ^ 4 ∧
    -2 ^ 45 ≤ scaledInt (sext32 arg) dp ∧ scaledInt (sext32 arg) dp < 2 ^ 45 ∧
    (scaledReal arg dp).toNat ≤ 65535)

/-- R91 (a) to (e), the spec's inferences from R90. -/
def Obligations.DecimalDecompositionFacts : Prop :=
  (∀ (v : Int) (d : Digit), d ∈ decomposeDecimal v → d.toNat ≤ 9) ∧
  (∀ v : Int, (decomposeDecimal v).length = 4) ∧
  (∀ v j : Int, decomposeDecimal (v + 10000 * j) = decomposeDecimal v) ∧
  decomposeDecimal 5 = [5, 0, 0, 0] ∧
  (∀ v : Int, ∃ d0 d1 d2 d3 : Digit, decomposeDecimal v = [d0, d1, d2, d3] ∧
    v % 10000 = d0.toNat + 10 * d1.toNat + 100 * d2.toNat + 1000 * d3.toNat)

/-- R92: the loop's digits: digit `k` is `t / 16^k mod 16` for `t = v mod 0x10000`; it runs at least once and at most
four times, stops once nothing is left or after four, and not before. -/
def Obligations.HexLoopDigits : Prop :=
  ∀ v : Nat,
    let t := v % 0x10000
    let h := decomposeHex v
    1 ≤ h.length ∧ h.length ≤ 4 ∧
    (∀ k, k < h.length → h[k]? = some (BitVec.ofNat 4 (t / 16 ^ k % 16))) ∧
    (t / 16 ^ h.length = 0 ∨ h.length = 4) ∧
    (∀ k, 1 ≤ k → k < h.length → t / 16 ^ k ≠ 0)

/-- R93 (a) to (d), the spec's inferences from R92: the length is the number of significant nibbles, the cap never
cuts a digit, and digit `k` is bits `4k+3` to `4k` of `t`. -/
def Obligations.HexDecompositionFacts : Prop :=
  ∀ v : Nat,
    let t := v % 0x10000
    (t = 0 → (decomposeHex v).length = 1) ∧
    (t ≠ 0 → (decomposeHex v).length = Nat.log 16 t + 1) ∧
    (∀ cap, 4 ≤ cap → hexLoop cap t = decomposeHex v) ∧
    (∀ k, k < (decomposeHex v).length → (decomposeHex v)[k]? = some ((BitVec.ofNat 16 t).extractLsb' (4 * k) 4)) ∧
    (∀ d ∈ decomposeHex v, d.toNat ≤ 15)

/-- R94: the exact product, its bound, and (R94 marks this derived) that reducing the operand first changes nothing
modulo 10000. -/
def Obligations.IntegerScalingIsExact : Prop :=
  ∀ (arg : Arg) (dp : Places),
    scaledInt (sext32 arg) dp = sext32 arg * 10 ^ dp.val ∧
    |scaledInt (sext32 arg) dp| < 2 ^ 45 ∧
    scaledInt (sext32 arg) 0 = sext32 arg ∧
    scaledInt (sext32 arg) dp % 10000 = (sext32 arg % 10000 * 10 ^ dp.val) % 10000

/-- R95 (the selection and the truncation; the multiply is the next statement's): the constants are exact, a product
that is NaN, `<= -1.0` or `>= 65536.0` gives `P_REAL_OOR(ARG, DP)`, and any other its truncation toward zero; a NaN or
infinite operand falls in the `P_REAL_OOR` case at every `DP`. The open value is free: nothing is said of it. -/
def Obligations.RealScalingTruncatesOrIsOpen : Prop :=
  ∀ (arg : Arg) (dp : Places),
    f32 (p10f dp) = .fin false (10 ^ dp.val * 2 ^ 149) ∧
    ((f32 arg).mul (f32 (p10f dp)) = .nan → scaledReal arg dp = Config.realOor arg dp) ∧
    (∀ neg, (f32 arg).mul (f32 (p10f dp)) = .inf neg → scaledReal arg dp = Config.realOor arg dp) ∧
    (∀ mag, (f32 arg).mul (f32 (p10f dp)) = .fin true mag →
      (2 ^ 149 ≤ mag → scaledReal arg dp = Config.realOor arg dp) ∧ (mag < 2 ^ 149 → scaledReal arg dp = 0)) ∧
    (∀ mag, (f32 arg).mul (f32 (p10f dp)) = .fin false mag →
      (65536 * 2 ^ 149 ≤ mag → scaledReal arg dp = Config.realOor arg dp) ∧
      (mag < 65536 * 2 ^ 149 → (scaledReal arg dp).toNat = mag / 2 ^ 149)) ∧
    (f32 arg = .nan → scaledReal arg dp = Config.realOor arg dp) ∧
    (∀ neg, f32 arg = .inf neg → scaledReal arg dp = Config.realOor arg dp)

/-- R95's `mul_f32_rne`, assumption 8 (IEEE 754 is general knowledge): a finite product of finite operands is a
binary32 magnitude nearest to the exact product, the even one of two equally near; the product is infinite exactly
from the midpoint between the largest finite value and 2^128 on, finite below it, and never NaN. Magnitudes count
units of 2^-149. -/
def Obligations.MultiplyRoundsToNearestEven : Prop :=
  ∀ (a b : Bool) (m n : Nat),
    (∀ neg r, F32.mul (.fin a m) (.fin b n) = .fin neg r →
      neg = (a ^^ b) ∧
      (∃ f q, f < 2 ^ 24 ∧ r = f * 2 ^ q) ∧
      ∀ f q, f < 2 ^ 24 →
        ((m * n : Int) - r * 2 ^ 149).natAbs ≤ ((m * n : Int) - (f * 2 ^ q : Int) * 2 ^ 149).natAbs ∧
        (f * 2 ^ q ≠ r → ((m * n : Int) - r * 2 ^ 149).natAbs = ((m * n : Int) - (f * 2 ^ q : Int) * 2 ^ 149).natAbs →
          r / 2 ^ (bitLength r - 24) % 2 = 0)) ∧
    ((∃ neg, F32.mul (.fin a m) (.fin b n) = .inf neg) ↔ (2 ^ 25 - 1) * 2 ^ 252 * 2 ^ 149 ≤ m * n) ∧
    (∀ neg, F32.mul (.fin a m) (.fin b n) = .inf neg → neg = (a ^^ b)) ∧
    F32.mul (.fin a m) (.fin b n) ≠ .nan ∧
    (m * n < (2 ^ 25 - 1) * 2 ^ 252 * 2 ^ 149 → ∃ r, F32.mul (.fin a m) (.fin b n) = .fin (a ^^ b) r)

/-! ## Encoding (30_encoding.md) -/

/-- R62: how each command reads its operand; the binary32 reading is general knowledge (R7, assumption 8). -/
def Obligations.OperandReadings : Prop :=
  ∀ arg : Arg,
    zext32 arg = arg.toNat ∧
    levelOperand arg =
      (if arg.toNat = 0 then some .low else if arg.toNat = 1 then some .medium
       else if arg.toNat = 2 then some .high else none) ∧
    reversedOperand arg = decide (arg.toNat ≠ 0) ∧
    sext32 arg = (if arg.toNat < 2 ^ 31 then (arg.toNat : Int) else (arg.toNat : Int) - 2 ^ 32) ∧
    f32 arg =
      (let neg := decide (2 ^ 31 ≤ arg.toNat)
       let e := arg.toNat / 2 ^ 23 % 2 ^ 8
       let f := arg.toNat % 2 ^ 23
       if e = 255 then (if f = 0 then .inf neg else .nan)
       else if e = 0 then .fin neg f
       else .fin neg ((2 ^ 23 + f) * 2 ^ (e - 1)))

/-- R61: a format N command ignores all of `ARG` and is written with `ARG = 0`; a format A command carries all 32
bits. -/
def Obligations.FormatsReadOrIgnoreArg : Prop :=
  (∀ arg : Arg, decode (cmdWord 0x1 arg) = .enableMux ∧ decode (cmdWord 0x2 arg) = .disableMux ∧
    decode (cmdWord 0x5 arg) = .clear ∧ decode (cmdWord 0x9 arg) = .segmentTest) ∧
  (∀ i : Instr, i = .enableMux ∨ i = .disableMux ∨ i = .clear ∨ i = .segmentTest → argField (encode i) = 0) ∧
  (∀ arg : Arg, decode (cmdWord 0x0 arg) = .setBrightness arg ∧ decode (cmdWord 0x3 arg) = .setDigitOrder arg ∧
    decode (cmdWord 0x4 arg) = .setDecimalPlaces arg ∧ decode (cmdWord 0x6 arg) = .sendDec arg ∧
    decode (cmdWord 0x7 arg) = .sendDecReal arg ∧ decode (cmdWord 0x8 arg) = .sendHex arg)

/-- R60 to R66: decoding the word of a well-formed instruction gives it back, with every operand at every value. -/
def Obligations.DecodeOfEncode : Prop := ∀ i : Instr, i.wf = true → decode (encode i) = i

/-- R66, R61: every word decodes to a well-formed instruction, and encoding that gives the word back, up to the
ignored operand of a format N command. -/
def Obligations.EncodeOfDecode : Prop :=
  ∀ w : CmdWord,
    (decode w).wf = true ∧
    encode (decode w) =
      (if opField w = 0x1 ∨ opField w = 0x2 ∨ opField w = 0x5 ∨ opField w = 0x9 then cmdWord (opField w) 0 else w)

/-- R63, R65, R66 and spec/opcode_table.json: every word lies in exactly one row, the decoder reads that row's
command, and no bit below the opcode moves a word to another row. -/
def Obligations.OpcodeTablePartition : Prop :=
  (∀ w : CmdWord, (opcodeTable.filter (·.covers w)).map (·.mnemonic) = [(decode w).mnemonic]) ∧
  (∀ (op : Opcode) (a b : Arg), (decode (cmdWord op a)).mnemonic = (decode (cmdWord op b)).mnemonic)

/-- R60, R63: words written out bit by bit from the opcode map, with the worked words of R67. -/
def Obligations.SampleWordsDecode : Prop :=
  decode 0b0000_00000000000000000000000000000010 = .setBrightness 2 ∧
  decode 0b0001_00000000000000000000000000000000 = .enableMux ∧
  decode 0x4_FFFF_FFFF = .setDecimalPlaces 0xFFFFFFFF ∧
  decode 0x6_0000_04D2 = .sendDec 1234 ∧
  decode 0x7_4140_0000 = .sendDecReal 0x41400000 ∧
  decode 0x8_0000_01A3 = .sendHex 0x1A3 ∧
  decode 0xB_0000_0001 = .reservedAB 0xB 1 ∧
  decode 0xF_FFFF_FFFF = .reservedCF 0xF 0xFFFFFFFF

/-- R64: a reserved word is refused in every phase (assumption 4, from D4), and every assigned opcode has a meaning
for every `ARG`: in `Idle` it completes. -/
def Obligations.ReservedWordsRefused : Prop :=
  (∀ (op : Opcode) (arg : Arg) (s : State), 0xA ≤ op → exec (decode (cmdWord op arg)) s = .refused (.reservedWord op arg)) ∧
  (∀ (op : Opcode) (arg : Arg) (s : State), 0xA ≤ op → s.pins.rst = false → s.hasBeenReset = true →
    s.pins.cmdValid = true → s.pins.cmdWord = cmdWord op arg → step s = .refused (.reservedWord op arg)) ∧
  (∀ (op : Opcode) (arg : Arg) (s : State), op ≤ 9 → s.seq = .idle → ∃ t, exec (decode (cmdWord op arg)) s = .next t)

/-- The stop of the row with opcodes 0xA and 0xB (R64). -/
def Obligations.ReservedABStops : Prop :=
  ∀ (op : Opcode) (arg : Arg) (s : State), exec (.reservedAB op arg) s = .refused (.reservedWord op arg)

/-- The stop of the row with opcodes 0xC to 0xF (R64). -/
def Obligations.ReservedCFStops : Prop :=
  ∀ (op : Opcode) (arg : Arg) (s : State), exec (.reservedCF op arg) s = .refused (.reservedWord op arg)

/-- R68: the pseudo-instructions' expansions. -/
def Obligations.PseudoExpansions : Prop :=
  ∀ level real n int : Arg,
    (Pseudo.init4 level).expand = [.enableMux, .setBrightness level] ∧
    (Pseudo.init2 level).expand = [.disableMux, .setBrightness level] ∧
    (Pseudo.showFixed real n).expand = [.setDecimalPlaces n, .sendDecReal real] ∧
    (Pseudo.showInt int).expand = [.setDecimalPlaces 0, .sendDec int]

/-- R67: the examples of the command-stream syntax (the parts of the syntax that R67 leaves open are assumption 11).
-/
def Obligations.AssemblerExamples : Prop :=
  (assembleLine "SET_BRIGHTNESS HIGH").map (·.map encode) = some [0x0_0000_0002] ∧
  (assembleLine "ENABLE_MUX").map (·.map encode) = some [0x1_0000_0000] ∧
  (assembleLine "SEND_DEC #1234 ; a comment").map (·.map encode) = some [0x6_0000_04D2] ∧
  (assembleLine "SEND_DEC_REAL 12.0").map (·.map encode) = some [0x7_4140_0000] ∧
  (assembleLine "SEND_HEX #0x1A3").map (·.map encode) = some [0x8_0000_01A3] ∧
  (assembleLine "SET_DECIMAL_PLACES #-1").map (·.map encode) = some [0x4_FFFF_FFFF] ∧
  wordText 0x6_0000_04D2 = "0x6_0000_04D2"

/-! ## Configuration (10_state.md) -/

/-- R24: `ADC` is derived from `MUX_EN`, and (R24 marks this derived) is 2 at reset. -/
def Obligations.ActiveDigitCount : Prop :=
  (∀ c : Cfg, c.adc = if c.muxEn = true then 4 else 2) ∧ State.reset.cfg.adc = 2

/-- R22: `brightnessLevel` is a view of `CMD[6:4]`, with no level set at reset; a SET_BRIGHTNESS that is accepted sets
the view to its level, and no other command changes it, so there is no level only before the first SET_BRIGHTNESS. -/
def Obligations.BrightnessLevelIsAView : Prop :=
  (∀ c : Cfg,
    (brtField c.cmd = 0b100#3 → c.brightnessLevel = some .high) ∧
    (brtField c.cmd = 0b010#3 → c.brightnessLevel = some .medium) ∧
    (brtField c.cmd = 0b001#3 → c.brightnessLevel = some .low) ∧
    (brtField c.cmd = 0b000#3 → c.brightnessLevel = none)) ∧
  State.reset.cfg.brightnessLevel = none ∧
  (∀ (arg : Arg) (s t : State), s.seq = .idle → exec (.setBrightness arg) s = .next t →
    t.cfg.brightnessLevel = some ((levelOperand arg).getD .low)) ∧
  (∀ (i : Instr) (s t : State), (∀ arg, i ≠ .setBrightness arg) → exec i s = .next t →
    t.cfg.brightnessLevel = s.cfg.brightnessLevel)

/-! ## The configuration commands (42_config_commands.md): the whole next state -/

/-- R110: SET_BRIGHTNESS. Everything the record does not name is unchanged. -/
def Obligations.SetBrightnessResult : Prop :=
  ∀ (arg : Arg) (s : State),
    decode (cmdWord 0x0 arg) = .setBrightness arg ∧
    (s.seq = .idle →
      let bits : Byte := if arg.toNat = 2 then 0x40 else if arg.toNat = 1 then 0x20 else 0x10
      let cmd' : Byte := (s.cfg.cmd &&& 0x8F) ||| bits
      exec (.setBrightness arg) s = .next { s with
        cfg := { s.cfg with cmd := cmd' }
        seq := .busy [.beginFrame s.cfg.addr, .writeByte 0x00, .writeByte cmd', .endFrame] })

/-- R111: ENABLE_MUX. -/
def Obligations.EnableMuxResult : Prop :=
  ∀ (arg : Arg) (s : State),
    decode (cmdWord 0x1 arg) = .enableMux ∧
    (s.seq = .idle → ∃ t, exec .enableMux s = .next t ∧ t.cfg.adc = 4 ∧
      t = { s with cfg := { s.cfg with cmd := s.cfg.cmd ||| 0x07, muxEn := true } })

/-- R112: DISABLE_MUX; the next digit frame carries the base and tens bytes only. -/
def Obligations.DisableMuxResult : Prop :=
  ∀ (arg : Arg) (s : State),
    decode (cmdWord 0x2 arg) = .disableMux ∧
    (s.seq = .idle → ∃ t, exec .disableMux s = .next t ∧ t.cfg.adc = 2 ∧
      (∀ b0 b1 b2 b3 : Byte, t.cfg.order [b0, b1, b2, b3] = if s.cfg.rev then [b1, b0] else [b0, b1]) ∧
      t = { s with cfg := { s.cfg with cmd := s.cfg.cmd &&& 0xF8, muxEn := false } })

/-- R113: SET_DIGIT_ORDER. -/
def Obligations.SetDigitOrderResult : Prop :=
  ∀ (arg : Arg) (s : State),
    decode (cmdWord 0x3 arg) = .setDigitOrder arg ∧
    (s.seq = .idle →
      exec (.setDigitOrder arg) s = .next { s with cfg := { s.cfg with rev := decide (arg.toNat ≠ 0) } })

/-- R114: SET_DECIMAL_PLACES: values outside 0 to 4 store 0; the stored value is not limited by `ADC`. -/
def Obligations.SetDecimalPlacesResult : Prop :=
  ∀ (arg : Arg) (s : State),
    decode (cmdWord 0x4 arg) = .setDecimalPlaces arg ∧
    (s.seq = .idle → ∃ dp : Places,
      (dp.val : Int) = (if 0 ≤ arg.toInt ∧ arg.toInt ≤ 4 then arg.toInt else 0) ∧
      exec (.setDecimalPlaces arg) s = .next { s with cfg := { s.cfg with dp := dp } })

/-! ## The display commands (43_display_commands.md): the whole next state -/

/-- R131: the four orderings. -/
def Obligations.DigitOrder : Prop :=
  ∀ (c : Cfg) (b0 b1 b2 b3 : Byte),
    c.order [b0, b1, b2, b3] =
      match c.muxEn, c.rev with
      | true, false => [b0, b1, b2, b3]
      | true, true => [b3, b2, b1, b0]
      | false, false => [b0, b1]
      | false, true => [b1, b0]

/-- R133: the position of the decimal point; and (R133 marks this derived) in 2-digit mode with `DP` 2 or 3 the
pointed byte is not sent. -/
def Obligations.DecimalPointPosition : Prop :=
  (∀ dp : Places, dpPos dp = if dp.val = 1 then some 1 else if dp.val = 2 then some 2 else if dp.val = 3 then some 3
    else none) ∧
  (∀ (c : Cfg) (v : Int) (b : Byte), c.muxEn = false → c.dp = 2 ∨ c.dp = 3 → b ∈ c.order (decimalBytes v c.dp) →
    b.getLsbD 7 = false)

/-- R132: CLEAR. -/
def Obligations.ClearResult : Prop :=
  ∀ (arg : Arg) (s : State),
    decode (cmdWord 0x5 arg) = .clear ∧
    (s.seq = .idle →
      exec .clear s = .next { s with
        seq := .busy (Ev.beginFrame s.cfg.addr :: Ev.writeByte 0x01 ::
          (List.replicate (if s.cfg.muxEn then 4 else 2) (Ev.writeByte 0x00) ++ [Ev.endFrame])) })

/-- R134: SEND_DEC. -/
def Obligations.SendDecResult : Prop :=
  ∀ (arg : Arg) (s : State),
    decode (cmdWord 0x6 arg) = .sendDec arg ∧
    (s.seq = .idle → ∃ d0 d1 d2 d3 : Digit,
      decomposeDecimal (arg.toInt * 10 ^ s.cfg.dp.val) = [d0, d1, d2, d3] ∧
      exec (.sendDec arg) s = .next { s with
        seq := .busy (Ev.beginFrame s.cfg.addr :: Ev.writeByte 0x01 ::
          ((s.cfg.order [encUnit d0 (dpPos s.cfg.dp == some 0), encUnit d1 (dpPos s.cfg.dp == some 1),
            encUnit d2 (dpPos s.cfg.dp == some 2), encUnit d3 (dpPos s.cfg.dp == some 3)]).map Ev.writeByte ++
          [Ev.endFrame])) })

/-- R135: SEND_DEC_REAL, on every operand: a product that is NaN, at or below -1 or at or above 65536 makes the scaled
value the free `P_REAL_OOR(ARG, DP)`. -/
def Obligations.SendDecRealResult : Prop :=
  ∀ (arg : Arg) (s : State),
    decode (cmdWord 0x7 arg) = .sendDecReal arg ∧
    (let p := (f32 arg).mul (f32 (p10f s.cfg.dp))
     p = .nan ∨ p.leNegOne = true ∨ p.geTwo16 = true → scaledReal arg s.cfg.dp = Config.realOor arg s.cfg.dp) ∧
    (s.seq = .idle → ∃ d0 d1 d2 d3 : Digit,
      decomposeDecimal ((scaledReal arg s.cfg.dp).toNat : Int) = [d0, d1, d2, d3] ∧
      exec (.sendDecReal arg) s = .next { s with
        seq := .busy (Ev.beginFrame s.cfg.addr :: Ev.writeByte 0x01 ::
          ((s.cfg.order [encUnit d0 (dpPos s.cfg.dp == some 0), encUnit d1 (dpPos s.cfg.dp == some 1),
            encUnit d2 (dpPos s.cfg.dp == some 2), encUnit d3 (dpPos s.cfg.dp == some 3)]).map Ev.writeByte ++
          [Ev.endFrame])) })

/-- R136: SEND_HEX: the pad byte is 0x00, and `DP` is ignored. -/
def Obligations.SendHexResult : Prop :=
  ∀ (arg : Arg) (s : State),
    decode (cmdWord 0x8 arg) = .sendHex arg ∧
    (s.seq = .idle →
      let h := decomposeHex arg.toNat
      let b (k : Nat) : Byte := if hk : k < h.length then encodeDigit h[k] else 0x00
      exec (.sendHex arg) s = .next { s with
        seq := .busy (Ev.beginFrame s.cfg.addr :: Ev.writeByte 0x01 ::
          ((s.cfg.order [b 0, b 1, b 2, b 3]).map Ev.writeByte ++ [Ev.endFrame])) })

/-- R137: SEGMENT_TEST, for any `P_SEGTEST_MASK`. -/
def Obligations.SegmentTestResult : Prop :=
  ∀ (arg : Arg) (s : State),
    decode (cmdWord 0x9 arg) = .segmentTest ∧
    (s.seq = .idle →
      exec .segmentTest s = .next { s with
        seq := .busy [.beginFrame s.cfg.addr, .writeByte 0x00, .writeByte (s.cfg.cmd ||| Config.segtestMask), .endFrame,
          .hold, .beginFrame s.cfg.addr, .writeByte 0x00, .writeByte s.cfg.cmd, .endFrame] })

/-- R138 (the spec's inference from R130 to R137 and R85): no display command writes the configuration; a digit frame
has `1 + ADC` writes and a command frame 2; only the pointed byte of a decimal frame has bit 7 set, and no byte of a
SEND_HEX or CLEAR frame has. -/
def Obligations.DisplayCommandsKeepConfiguration : Prop :=
  ∀ (i : Instr) (s t : State), s.seq = .idle → exec i s = .next t →
    (i = .clear ∨ (∃ arg, i = .sendHex arg) →
      t.cfg = s.cfg ∧ ∃ bytes : List Byte, bytes.length = s.cfg.adc ∧ (∀ b ∈ bytes, b.getLsbD 7 = false) ∧
        t.seq = .busy (Ev.beginFrame s.cfg.addr :: Ev.writeByte 0x01 :: (bytes.map Ev.writeByte ++ [Ev.endFrame]))) ∧
    ((∃ arg, i = .sendDec arg) ∨ (∃ arg, i = .sendDecReal arg) →
      t.cfg = s.cfg ∧ ∃ b : List Byte, b.length = 4 ∧ (s.cfg.order b).length = s.cfg.adc ∧
        (∀ k x, b[k]? = some x → dpPos s.cfg.dp ≠ some k → x.getLsbD 7 = false) ∧
        t.seq = .busy (Ev.beginFrame s.cfg.addr :: Ev.writeByte 0x01 ::
          ((s.cfg.order b).map Ev.writeByte ++ [Ev.endFrame]))) ∧
    (i = .segmentTest →
      t.cfg = s.cfg ∧ ∃ x y : Byte, t.seq = .busy [.beginFrame s.cfg.addr, .writeByte 0x00, .writeByte x, .endFrame,
        .hold, .beginFrame s.cfg.addr, .writeByte 0x00, .writeByte y, .endFrame])

/-! ## Whole-machine rules -/

/-- 90_conflicts.md C3, R44: how many frames each command has, and that they keep the transport contract. -/
def Obligations.FramesOfEachCommand : Prop :=
  ∀ (i : Instr) (s t : State), s.seq = .idle → exec i s = .next t →
    FramePos.after (· == s.cfg.addr) (· == t.cfg.adc) .boundary t.seq.pend = some .boundary ∧
    t.seq.pend.countP (fun e => e == .endFrame) =
      match i with
      | .setBrightness _ => 1
      | .enableMux => 0
      | .disableMux => 0
      | .setDigitOrder _ => 0
      | .setDecimalPlaces _ => 0
      | .clear => 1
      | .sendDec _ => 1
      | .sendDecReal _ => 1
      | .sendHex _ => 1
      | .segmentTest => 2
      | .reservedAB _ _ => 0
      | .reservedCF _ _ => 0

/-- R185 (the spec's inference from R110 to R112): only SET_BRIGHTNESS and SEGMENT_TEST send a frame to register 0, so
a multiplex change reaches the controller with one of them; the byte SET_BRIGHTNESS sends carries the current
multiplex bits. -/
def Obligations.CommandByteOnlyFromBrightnessAndTest : Prop :=
  (∀ (i : Instr) (s t : State) (a : BusAddr) (pre post : List Ev), s.seq = .idle → exec i s = .next t →
    t.seq.pend = pre ++ .beginFrame a :: .writeByte 0x00 :: post → (∃ arg, i = .setBrightness arg) ∨ i = .segmentTest) ∧
  (∀ (arg : Arg) (s t : State), s.seq = .idle → exec (.setBrightness arg) s = .next t →
    muxbField t.cfg.cmd = muxbField s.cfg.cmd ∧ (.writeByte t.cfg.cmd) ∈ t.seq.pend)

/-- R186 (the spec's inference from R131 and R133): with `MUX_EN = 0` and `DP` 2 or 3, and with `DP = 4` in either
mode, no byte sent has the point; the block does not stop the host from storing such a `DP`. -/
def Obligations.PointOutsideSentDigits : Prop :=
  (∀ (c : Cfg) (v : Int), (c.muxEn = false ∧ (c.dp = 2 ∨ c.dp = 3)) ∨ c.dp = 4 →
    ∀ b ∈ c.order (decimalBytes v c.dp), b.getLsbD 7 = false) ∧
  (∀ (s : State) (n : Places), s.seq = .idle → ∃ t, exec (.setDecimalPlaces (BitVec.ofNat 32 n.val)) s = .next t ∧
    t.cfg.dp = n ∧ t.cfg.muxEn = s.cfg.muxEn)

/-- R180: while `rst` is asserted `cmd_ready` is 0 and the step leaves the reset state, from which release makes
`cmd_ready` 1; it emits nothing (R182). `State.reset` is that state. That it satisfies R31's invariant is the spec's own
inference ("The reset state satisfies the invariant", R180). That `raw_addr` is sampled in each step of a held `rst`, and
that a block never reset before is reset too, is assumption 10. In a state with a command in progress R180's reset does
not apply (R162), so that case is shut out. -/
def Obligations.ResetState : Prop :=
  (∀ s : State, s.pins.rst = true → s.seq = .idle →
    s.cmdReady = false ∧
    ∃ t, step s = .next t ∧
      t = { cfg := { cmd := 0x00, muxEn := false, rev := false, dp := 0, addr := addrOfRaw s.pins.rawAddr },
            seq := .idle, hasBeenReset := true, inputs := s.inputs.tail, sent := s.sent } ∧
      t.cfg.adc = 2 ∧ t.cfg.Inv ∧ (t.pins.rst = false → t.cmdReady = true)) ∧
  State.reset.cfg = { cmd := 0x00, muxEn := false, rev := false, dp := 0, addr := addrOfRaw Config.rawAddr } ∧
  State.reset.seq = .idle ∧ State.reset.hasBeenReset = true ∧ State.reset.sent = []

/-- R181: the raw address is halved, its bit 0 dropped; `ADDR` is sampled at reset and at no other time. That each step
of a held `rst` samples it anew, so that the last one counts, is assumption 10. -/
def Obligations.AddressConversion : Prop :=
  (∀ raw : BitVec 8, (addrOfRaw raw).toNat = raw.toNat / 2) ∧
  addrOfRaw 0x70 = 0x38 ∧ addrOfRaw 0x71 = 0x38 ∧ addrOfRaw 0x76 = 0x3B ∧
  (∀ s t : State, s.pins.rst = true → step s = .next t → t.cfg.addr = addrOfRaw s.pins.rawAddr) ∧
  (∀ s t : State, s.pins.rst = false → step s = .next t → t.cfg.addr = s.cfg.addr)

/-- R43, R46: when the block is ready and a command is presented, the step is the command's `exec`, the step's inputs
being over. -/
def Obligations.StepRunsPresentedCommand : Prop :=
  ∀ (s : State) (i : Instr), s.hasBeenReset = true → s.cmdReady = true → s.pins.cmdValid = true →
    decode s.pins.cmdWord = i → step s = exec i s.tick

/-- A word placed on the command port runs in the very next step, in the state as it was but for the phase `Idle` and
the reset having been (R43; assumption 3 says what the placing does). -/
def Obligations.PlacedWordRunsNext : Prop :=
  ∀ (s : State) (nbits w : Nat) (i : Instr), decodeTableWord nbits w = some i →
    step (s.withFetchWord nbits w) = exec i { s with seq := .idle, hasBeenReset := true }

/-- R46: the four transitions of the sequencer. In `emit`, `done` and `expire` nothing is asserted that R162 puts
before them: no reset and, where the model refuses it in every phase (assumption 4), no reserved word. -/
def Obligations.SequencerTransitions : Prop :=
  (∀ (i : Instr) (s : State), s.seq = .idle → i.isReserved = false →
    ∃ (cfg' : Cfg) (evs : List Ev),
      exec i s = .next { s with cfg := cfg', seq := if evs = [] then .idle else .busy evs } ∧
      (evs = [] ∨ evs.getLast? = some .endFrame) ∧
      (evs = [] ↔ i = .enableMux ∨ i = .disableMux ∨ (∃ a, i = .setDigitOrder a) ∨ ∃ a, i = .setDecimalPlaces a)) ∧
  (∀ s : State, s.hasBeenReset = true → s.HostLegal → s.pins.rst = false →
    (∀ e rest, s.seq = .busy (e :: rest) → s.pins.accepts e = true →
      step s = .next { s with
        inputs := s.inputs.tail
        sent := s.sent ++ [e]
        seq := if e = .endFrame then .awaitDone rest else if e = .hold then .awaitTimer rest else .busy rest }) ∧
    (∀ rest, s.seq = .awaitDone rest → s.pins.frameDone = true →
      step s = .next { s with inputs := s.inputs.tail, seq := if rest = [] then .idle else .busy rest }) ∧
    (∀ rest, s.seq = .awaitTimer rest → s.pins.holdExpired = true →
      step s = .next { s with inputs := s.inputs.tail, seq := if rest = [] then .idle else .busy rest }))

/-- R43: `cmd_ready`; the transfer; and a command presented while `cmd_ready = 0` waits: the step is the one with no
command presented, and no configuration changes. A reserved word does not wait (assumption 4). -/
def Obligations.CommandPortHandshake : Prop :=
  ∀ s : State, s.hasBeenReset = true →
    (s.cmdReady = true ↔ s.seq = .idle ∧ s.pins.rst = false) ∧
    (s.cmdReady = true → s.pins.cmdValid = true → step s = exec (decode s.pins.cmdWord) s.tick) ∧
    (∀ (p : Pins) (rest : List Pins), s.inputs = p :: rest → p.rst = false → s.seq ≠ .idle →
      (decode p.cmdWord).isReserved = false →
      step s = step { s with inputs := { p with cmdValid := false } :: rest } ∧
      ∀ t, step s = .next t → t.cfg = s.cfg)

/-- R161: `frame_done` is consumed in `AwaitDone` only and `hold_expired` in `AwaitTimer` only; in every other phase
each is ignored. -/
def Obligations.PulsesIgnoredOutsideTheirPhase : Prop :=
  ∀ (s : State) (p : Pins) (rest : List Pins) (b : Bool), s.inputs = p :: rest →
    ((∀ pend, s.seq ≠ .awaitDone pend) → step s = step { s with inputs := { p with frameDone := b } :: rest }) ∧
    ((∀ pend, s.seq ≠ .awaitTimer pend) → step s = step { s with inputs := { p with holdExpired := b } :: rest })

/-- R162: (1) reset wins, and is refused while a command is in progress; (2) in `Idle` a presented command is
accepted; (3) in each other phase only its own input moves the sequencer. -/
def Obligations.SimultaneousEvents : Prop :=
  ∀ s : State, s.hasBeenReset = true →
    (s.pins.rst = true →
      (s.seq = .idle → step s = .next (s.tick.resetBy s.pins.rawAddr)) ∧
      (s.seq ≠ .idle → step s = .refused .resetWhileBusy)) ∧
    (s.pins.rst = false → s.seq = .idle → s.pins.cmdValid = true → step s = exec (decode s.pins.cmdWord) s.tick) ∧
    (s.pins.rst = false → s.seq = .idle → s.pins.cmdValid = false → step s = .next s.tick) ∧
    (s.pins.rst = false → s.HostLegal →
      (∀ e rest, s.seq = .busy (e :: rest) →
        step s = if s.pins.accepts e then .next (s.tick.emit e rest) else .next s.tick) ∧
      (∀ rest, s.seq = .awaitDone rest →
        step s = if s.pins.frameDone then .next (s.tick.resume rest) else .next s.tick) ∧
      (∀ rest, s.seq = .awaitTimer rest →
        step s = if s.pins.holdExpired then .next (s.tick.resume rest) else .next s.tick))

/-- R172, R32 (assumption 10): before the first reset a presented command is refused, nothing is emitted and only a reset moves the
block. -/
def Obligations.NothingRunsBeforeTheFirstReset : Prop :=
  ∀ s : State, s.hasBeenReset = false →
    (s.pins.rst = false → s.pins.cmdValid = true → step s = .refused .commandBeforeReset) ∧
    (s.pins.rst = false → s.pins.cmdValid = false → step s = .next s.tick) ∧
    (s.pins.rst = true → step s = .next (s.tick.resetBy s.pins.rawAddr))

/-- R188, R172: while the transport or the timer does not accept the head event, or the awaited input does not come,
nothing but the step's inputs is used up. -/
def Obligations.StalledBlockWaits : Prop :=
  ∀ s : State, s.hasBeenReset = true → s.HostLegal → s.pins.rst = false →
    (∃ e rest, s.seq = .busy (e :: rest) ∧ s.pins.accepts e = false) ∨
      (∃ rest, s.seq = .awaitDone rest ∧ s.pins.frameDone = false) ∨
      (∃ rest, s.seq = .awaitTimer rest ∧ s.pins.holdExpired = false) →
    step s = .next { s with inputs := s.inputs.tail } ∧ s.cmdReady = false

/-- R47 (b), (d): accepting emits nothing; after that no event is lost, doubled or reordered, and each step emits at
most one. -/
def Obligations.EventsLeaveInOrder : Prop :=
  ∀ s t : State, s.hasBeenReset = true → s.pins.rst = false → step s = .next t →
    (s.seq = .idle → t.sent = s.sent) ∧
    (s.seq ≠ .idle → t.sent ++ t.seq.pend = s.sent ++ s.seq.pend ∧
      (t.sent = s.sent ∨ ∃ e, t.sent = s.sent ++ [e]))

/-- R52 (the spec's inference from R43 and R46): `cmd_ready` returns to 1 only by the `frame_done` of the last frame,
with every event emitted. -/
def Obligations.ReadyReturnsAfterLastFrame : Prop :=
  ∀ s t : State, s.Inv → s.hasBeenReset = true → s.seq ≠ .idle → step s = .next t → t.seq = .idle →
    s.seq = .awaitDone [] ∧ s.pins.frameDone = true ∧ s.sent.getLast? = some .endFrame ∧ t.sent = s.sent

/-- R20, R21, R23, R25, R26, R29: each configuration register changes only in a step that accepts one of the commands
the table names as its writers, or by reset. -/
def Obligations.ConfigurationWriters : Prop :=
  ∀ s t : State, s.pins.rst = false → step s = .next t →
    let i := decode s.pins.cmdWord
    let accepted := s.hasBeenReset = true ∧ s.seq = .idle ∧ s.pins.cmdValid = true
    (t.cfg.cmd = s.cfg.cmd ∨ (accepted ∧ ((∃ a, i = .setBrightness a) ∨ i = .enableMux ∨ i = .disableMux))) ∧
    (t.cfg.muxEn = s.cfg.muxEn ∨ (accepted ∧ (i = .enableMux ∨ i = .disableMux))) ∧
    (t.cfg.rev = s.cfg.rev ∨ (accepted ∧ ∃ a, i = .setDigitOrder a)) ∧
    (t.cfg.dp = s.cfg.dp ∨ (accepted ∧ ∃ a, i = .setDecimalPlaces a)) ∧
    t.cfg.addr = s.cfg.addr

/-- With the host's duties kept, no step stops (R160, R172: the block has no fault, and the only refusals are a
reserved word, reset while busy and a command before the first reset). -/
def Obligations.LegalStepsNeverStop : Prop :=
  ∀ s : State, s.hasBeenReset = true → s.HostLegal → ∃ t, step s = .next t

/-- The invariant of Safety.lean (R31, R44, R46) holds at reset. -/
def Obligations.InvariantHoldsAtReset : Prop := State.reset.Inv

/-- Every step keeps the invariant of Safety.lean: R31 (a) to (d), the transport contract R44 over everything emitted
and pending, and the phase's own shape R46. -/
def Obligations.StepKeepsInvariant : Prop := ∀ s t : State, s.Inv → step s = .next t → t.Inv

/-- R31 (the spec's inference from R21, R23, R26, R29, R110 to R114 and R180): from every reset state and every
sequence of commands, (a) to (e). -/
def Obligations.RunsKeepConfigurationInvariant : Prop :=
  ∀ (k : Nat) (s t : State) (a : BusAddr),
    s.hasBeenReset = true → s.seq = .idle →
    s.cfg = { cmd := 0x00, muxEn := false, rev := false, dp := 0, addr := a } →
    (∀ p ∈ s.inputs, p.rst = false) → Host.Core.run core k s = .next t →
    (muxbField t.cfg.cmd = 0b111#3 ↔ t.cfg.muxEn = true) ∧ (muxbField t.cfg.cmd = 0b000#3 ↔ t.cfg.muxEn = false) ∧
    t.cfg.cmd.getLsbD 7 = false ∧ t.cfg.cmd.getLsbD 3 = false ∧
    (∀ j k, 4 ≤ j → j ≤ 6 → 4 ≤ k → k ≤ 6 → t.cfg.cmd.getLsbD j = true → t.cfg.cmd.getLsbD k = true → j = k) ∧
    t.cfg.dp.val ≤ 4 ∧ t.cfg.addr = a

/-- R46, R52, R172: under an environment that makes progress the block emits what is pending, in order, and reaches
`Idle` in exactly the counted steps, changing nothing else. -/
def Obligations.CooperativeEnvironmentDrains : Prop :=
  ∀ (s : State) (rest : List Pins), s.Inv → s.hasBeenReset = true →
    s.inputs = List.replicate s.seq.drainSteps Pins.cooperative ++ rest →
    Host.Core.run core s.seq.drainSteps s =
      .next { s with seq := .idle, sent := s.sent ++ s.seq.pend, inputs := rest }

/-- R46, R47 (a): a command presented to a ready block and then an environment that makes progress: the block ends in
`Idle` with the command's configuration and with the command's events, and no others, added to what was emitted. -/
def Obligations.AcceptedCommandCompletes : Prop :=
  ∀ (s u : State) (p : Pins) (rest : List Pins), s.Inv → s.hasBeenReset = true → s.seq = .idle →
    p.rst = false → p.cmdValid = true → exec (decode p.cmdWord) s = .next u →
    s.inputs = p :: (List.replicate u.seq.drainSteps Pins.cooperative ++ rest) →
    Host.Core.run core (1 + u.seq.drainSteps) s =
      .next { s with cfg := u.cfg, seq := .idle, sent := s.sent ++ u.seq.pend, inputs := rest }
end

