-- ==== Sys2Proof/Laws/Binary32.lean ====
section
/-! SUPPORT. The multiply, what rounding can answer, and the conversion of a binary32 product to 16 bits, case by case
(41_decomposer.md R95). -/

namespace Sys2Proof.Machine

@[simp] theorem F32.nan_mul (b : F32) : F32.nan.mul b = .nan := by cases b <;> rfl

@[simp] theorem F32.mul_nan (a : F32) : a.mul .nan = .nan := by cases a <;> rfl

/-- An infinity times a finite value is an infinity, but for zero. -/
@[simp] theorem F32.inf_mul_fin (a b : Bool) (m : Nat) :
    (F32.inf a).mul (.fin b m) = if m = 0 then .nan else .inf (a ^^ b) := rfl

/-- Rounding keeps the sign and answers an infinity or a finite value, never NaN. -/
theorem roundF32_cases (neg : Bool) (n d : Nat) :
    roundF32 neg n d = .inf neg ∨ ∃ mag, mag < f32Limit ∧ roundF32 neg n d = .fin neg mag := by
  unfold roundF32
  by_cases h : f32Limit ≤ roundQuotient n (d * 2 ^ (bitLength (n / d) - 24)) * 2 ^ (bitLength (n / d) - 24)
  · exact .inl (if_pos h)
  · exact .inr ⟨_, Nat.lt_of_not_le h, if_neg h⟩

/-- Two finite values have one rounded product; the sign is the exclusive or of the signs. -/
theorem F32.fin_mul_fin (a b : Bool) (m n : Nat) :
    (F32.fin a m).mul (.fin b n) = roundF32 (a ^^ b) (m * n) f32One := rfl

@[simp] theorem F32.toU16_nan : F32.nan.toU16 = none := by simp [F32.toU16]

@[simp] theorem F32.toU16_inf (neg : Bool) : (F32.inf neg).toU16 = none := by
  cases neg <;> simp [F32.toU16, F32.leNegOne, F32.geTwo16]

/-- A negative product above -1, and -0.0, converts to 0; one at or below -1 has no fixed result. -/
theorem F32.toU16_neg (mag : Nat) : (F32.fin true mag).toU16 = if f32One ≤ mag then none else some 0 := by
  by_cases h : f32One ≤ mag
  · simp [F32.toU16, F32.leNegOne, h]
  · have hz : (mag : Int) / (f32One : Int) = 0 := by exact_mod_cast Nat.div_eq_of_lt (Nat.not_le.mp h)
    simp [F32.toU16, F32.leNegOne, F32.geTwo16, F32.trunc, h, hz]

/-- A product that is not negative is truncated, below 65536. -/
theorem F32.toU16_pos (mag : Nat) :
    (F32.fin false mag).toU16 = if 65536 * f32One ≤ mag then none else some (BitVec.ofNat 16 (mag / f32One)) := by
  by_cases h : 65536 * f32One ≤ mag
  · simp [F32.toU16, F32.geTwo16, h]
  · simp only [F32.toU16, F32.leNegOne, F32.geTwo16, F32.trunc, h]
    simp
    exact_mod_cast BitVec.ofInt_natCast 16 (mag / f32One)

/-- `scaledReal` through the conversion. -/
theorem scaledReal_eq (arg : Arg) (dp : Places) :
    scaledReal arg dp = ((realProduct arg dp).toU16).getD (Config.realOor arg dp) := by
  unfold scaledReal
  cases (realProduct arg dp).toU16 <;> rfl

end Sys2Proof.Machine
end

