-- ==== Sys2Proof/Laws/State.lean ====
section
/-! SUPPORT. One lemma for each field of each named update of the configuration and of the state. -/

namespace Sys2Proof.Machine

variable (s : State) (c : Cfg)

@[simp] theorem Cfg.withCmd_cmd (x : Byte) : (c.withCmd x).cmd = x := rfl
@[simp] theorem Cfg.withCmd_muxEn (x : Byte) : (c.withCmd x).muxEn = c.muxEn := rfl
@[simp] theorem Cfg.withCmd_rev (x : Byte) : (c.withCmd x).rev = c.rev := rfl
@[simp] theorem Cfg.withCmd_dp (x : Byte) : (c.withCmd x).dp = c.dp := rfl
@[simp] theorem Cfg.withCmd_addr (x : Byte) : (c.withCmd x).addr = c.addr := rfl

@[simp] theorem Cfg.withMux_cmd (x : Byte) (b : Bool) : (c.withMux x b).cmd = x := rfl
@[simp] theorem Cfg.withMux_muxEn (x : Byte) (b : Bool) : (c.withMux x b).muxEn = b := rfl
@[simp] theorem Cfg.withMux_rev (x : Byte) (b : Bool) : (c.withMux x b).rev = c.rev := rfl
@[simp] theorem Cfg.withMux_dp (x : Byte) (b : Bool) : (c.withMux x b).dp = c.dp := rfl
@[simp] theorem Cfg.withMux_addr (x : Byte) (b : Bool) : (c.withMux x b).addr = c.addr := rfl

@[simp] theorem Cfg.withRev_cmd (b : Bool) : (c.withRev b).cmd = c.cmd := rfl
@[simp] theorem Cfg.withRev_muxEn (b : Bool) : (c.withRev b).muxEn = c.muxEn := rfl
@[simp] theorem Cfg.withRev_rev (b : Bool) : (c.withRev b).rev = b := rfl
@[simp] theorem Cfg.withRev_dp (b : Bool) : (c.withRev b).dp = c.dp := rfl
@[simp] theorem Cfg.withRev_addr (b : Bool) : (c.withRev b).addr = c.addr := rfl

@[simp] theorem Cfg.withDp_cmd (n : Places) : (c.withDp n).cmd = c.cmd := rfl
@[simp] theorem Cfg.withDp_muxEn (n : Places) : (c.withDp n).muxEn = c.muxEn := rfl
@[simp] theorem Cfg.withDp_rev (n : Places) : (c.withDp n).rev = c.rev := rfl
@[simp] theorem Cfg.withDp_dp (n : Places) : (c.withDp n).dp = n := rfl
@[simp] theorem Cfg.withDp_addr (n : Places) : (c.withDp n).addr = c.addr := rfl

@[simp] theorem State.tick_cfg : (s.tick).cfg = s.cfg := rfl
@[simp] theorem State.tick_seq : (s.tick).seq = s.seq := rfl
@[simp] theorem State.tick_hasBeenReset : (s.tick).hasBeenReset = s.hasBeenReset := rfl
@[simp] theorem State.tick_inputs : (s.tick).inputs = s.inputs.tail := rfl
@[simp] theorem State.tick_sent : (s.tick).sent = s.sent := rfl

@[simp] theorem State.emit_cfg (e : Ev) (rest : List Ev) : (s.emit e rest).cfg = s.cfg := rfl
@[simp] theorem State.emit_seq (e : Ev) (rest : List Ev) : (s.emit e rest).seq = Phase.afterEmit e rest := rfl
@[simp] theorem State.emit_hasBeenReset (e : Ev) (rest : List Ev) : (s.emit e rest).hasBeenReset = s.hasBeenReset := rfl
@[simp] theorem State.emit_inputs (e : Ev) (rest : List Ev) : (s.emit e rest).inputs = s.inputs := rfl
@[simp] theorem State.emit_sent (e : Ev) (rest : List Ev) : (s.emit e rest).sent = s.sent ++ [e] := rfl

@[simp] theorem State.resume_cfg (rest : List Ev) : (s.resume rest).cfg = s.cfg := rfl
@[simp] theorem State.resume_seq (rest : List Ev) : (s.resume rest).seq = Phase.ofEvents rest := rfl
@[simp] theorem State.resume_hasBeenReset (rest : List Ev) : (s.resume rest).hasBeenReset = s.hasBeenReset := rfl
@[simp] theorem State.resume_inputs (rest : List Ev) : (s.resume rest).inputs = s.inputs := rfl
@[simp] theorem State.resume_sent (rest : List Ev) : (s.resume rest).sent = s.sent := rfl

@[simp] theorem State.resetBy_cfg (raw : BitVec 8) : (s.resetBy raw).cfg = 
      { cmd := 0x00, muxEn := false, rev := false, dp := 0, addr := addrOfRaw raw } := rfl
@[simp] theorem State.resetBy_seq (raw : BitVec 8) : (s.resetBy raw).seq = .idle := rfl
@[simp] theorem State.resetBy_hasBeenReset (raw : BitVec 8) : (s.resetBy raw).hasBeenReset = true := rfl
@[simp] theorem State.resetBy_inputs (raw : BitVec 8) : (s.resetBy raw).inputs = s.inputs := rfl
@[simp] theorem State.resetBy_sent (raw : BitVec 8) : (s.resetBy raw).sent = s.sent := rfl

end Sys2Proof.Machine
end

