-- ==== Sys2Proof/Laws/Ops.lean ====
section
/-! SUPPORT. What each shared operation can do, said once; later proofs cite these and do not unfold the operations. -/

namespace Sys2Proof.Machine

variable {s t : State} {f : Cfg → Cfg × List Ev} {rest : List Ev} {i : Instr} {e : Ev}

/-! ## Phases -/

@[simp] theorem Phase.ofEvents_nil : Phase.ofEvents [] = .idle := rfl

@[simp] theorem Phase.ofEvents_cons (e : Ev) (es : List Ev) : Phase.ofEvents (e :: es) = .busy (e :: es) := by
  simp [Phase.ofEvents]

@[simp] theorem Phase.pend_idle : Phase.idle.pend = [] := rfl

@[simp] theorem Phase.pend_busy (evs : List Ev) : (Phase.busy evs).pend = evs := rfl

@[simp] theorem Phase.pend_awaitDone (evs : List Ev) : (Phase.awaitDone evs).pend = evs := rfl

@[simp] theorem Phase.pend_awaitTimer (evs : List Ev) : (Phase.awaitTimer evs).pend = evs := rfl

@[simp] theorem Phase.pend_ofEvents (evs : List Ev) : (Phase.ofEvents evs).pend = evs := by
  cases evs <;> simp

@[simp] theorem Phase.pend_afterEmit (e : Ev) (rest : List Ev) : (Phase.afterEmit e rest).pend = rest := by
  cases e <;> rfl

/-! ## Accepting a command -/

theorem State.accept_idle (h : s.seq = .idle) :
    s.accept f = .next { s with cfg := (f s.cfg).1, seq := Phase.ofEvents (f s.cfg).2 } := if_pos h

theorem State.accept_waits (h : s.seq ≠ .idle) : s.accept f = .next s := if_neg h

/-- All that accepting can do. -/
theorem State.accept_next (h : s.accept f = .next t) :
    (s.seq = .idle ∧ t = { s with cfg := (f s.cfg).1, seq := Phase.ofEvents (f s.cfg).2 }) ∨
    (s.seq ≠ .idle ∧ t = s) := by
  by_cases hi : s.seq = .idle
  · rw [State.accept_idle hi] at h; exact .inl ⟨hi, (Host.Outcome.next.inj h).symm⟩
  · rw [State.accept_waits hi] at h; exact .inr ⟨hi, (Host.Outcome.next.inj h).symm⟩

/-- Every meaning but the reserved rows' is one `accept`. -/
theorem exec_eq_accept (i : Instr) (h : i.isReserved = false) :
    ∃ f : Cfg → Cfg × List Ev, ∀ s : State, exec i s = s.accept f := by
  cases i <;>
    first
      | cases h <;> done
      | simp only [exec, execSetBrightness, execEnableMux, execDisableMux, execSetDigitOrder, execSetDecimalPlaces,
          execClear, execSendDec, execSendDecReal, execSendHex, execSegmentTest]
        exact ⟨_, fun s => rfl⟩

theorem exec_reserved (h : i.isReserved = true) (s : State) : ∃ op arg, exec i s = .refused (.reservedWord op arg) := by
  cases i <;> first | exact ⟨_, _, rfl⟩ | cases h

/-- What no command changes: the environment's inputs, the events emitted so far, and that a reset has been. -/
theorem exec_next_frame (h : exec i s = .next t) :
    t.inputs = s.inputs ∧ t.sent = s.sent ∧ t.hasBeenReset = s.hasBeenReset := by
  cases hr : i.isReserved with
  | true => obtain ⟨op, arg, hx⟩ := exec_reserved hr s; rw [hx] at h; cases h
  | false =>
    obtain ⟨f, hf⟩ := exec_eq_accept i hr
    rw [hf] at h
    obtain ⟨-, rfl⟩ | ⟨-, rfl⟩ := State.accept_next h <;> simp

/-! ## Moves and steps -/

/-- A step is one of its moves. -/
theorem step_next (h : step s = .next t) :
    (∃ raw, s.nextMove = .reset raw ∧ t = s.tick.resetBy raw) ∨
    (∃ i, s.nextMove = .run i ∧ exec i s.tick = .next t) ∨
    (∃ e rest, s.nextMove = .emit e rest ∧ t = s.tick.emit e rest) ∨
    (∃ rest, s.nextMove = .resume rest ∧ t = s.tick.resume rest) ∨
    (s.nextMove = .wait ∧ t = s.tick) := by
  unfold step at h
  cases hm : s.nextMove with
  | reset raw => rw [hm] at h; exact .inl ⟨raw, rfl, (Host.Outcome.next.inj h).symm⟩
  | run i => rw [hm] at h; exact .inr (.inl ⟨i, rfl, h⟩)
  | emit e rest => rw [hm] at h; exact .inr (.inr (.inl ⟨e, rest, rfl, (Host.Outcome.next.inj h).symm⟩))
  | resume rest => rw [hm] at h; exact .inr (.inr (.inr (.inl ⟨rest, rfl, (Host.Outcome.next.inj h).symm⟩)))
  | wait => rw [hm] at h; exact .inr (.inr (.inr (.inr ⟨rfl, (Host.Outcome.next.inj h).symm⟩)))
  | refuse r => rw [hm] at h; cases h

theorem State.phaseMove_cases (s : State) :
    s.phaseMove = .wait ∨
    (∃ e rest, s.seq = .busy (e :: rest) ∧ s.pins.accepts e = true ∧ s.phaseMove = .emit e rest) ∨
    (∃ rest, s.seq = .awaitDone rest ∧ s.pins.frameDone = true ∧ s.phaseMove = .resume rest) ∨
    (∃ rest, s.seq = .awaitTimer rest ∧ s.pins.holdExpired = true ∧ s.phaseMove = .resume rest) := by
  unfold State.phaseMove
  split
  · exact .inl rfl
  · exact .inl rfl
  · next e rest hs =>
    split
    · next ha => exact .inr (.inl ⟨e, rest, hs, ha, rfl⟩)
    · exact .inl rfl
  · next rest hs =>
    split
    · next ha => exact .inr (.inr (.inl ⟨rest, hs, ha, rfl⟩))
    · exact .inl rfl
  · next rest hs =>
    split
    · next ha => exact .inr (.inr (.inr ⟨rest, hs, ha, rfl⟩))
    · exact .inl rfl

/-- The phase alone never resets, runs a command or refuses. -/
theorem State.phaseMove_ne (s : State) :
    (∀ raw, s.phaseMove ≠ .reset raw) ∧ (∀ i, s.phaseMove ≠ .run i) ∧ (∀ r, s.phaseMove ≠ .refuse r) := by
  obtain h | ⟨e, rest, -, -, h⟩ | ⟨rest, -, -, h⟩ | ⟨rest, -, -, h⟩ := s.phaseMove_cases <;> simp [h]

/-- The block is held in reset. -/
theorem State.nextMove_reset {raw : BitVec 8} (h : s.nextMove = .reset raw) :
    s.pins.rst = true ∧ raw = s.pins.rawAddr ∧ (s.hasBeenReset = true → s.seq = .idle) := by
  unfold State.nextMove at h
  split at h
  · next hr =>
    split at h
    · cases h
    · next hn => exact ⟨hr, (Move.reset.inj h).symm, fun hb => by_contra fun hi => hn ⟨hb, hi⟩⟩
  · split at h
    · split at h <;> cases h
    · split at h
      · cases h
      · exact absurd h (s.phaseMove_ne.1 raw)

/-- A command runs. -/
theorem State.nextMove_run (h : s.nextMove = .run i) :
    s.pins.rst = false ∧ s.hasBeenReset = true ∧ s.pins.cmdValid = true ∧ i = decode s.pins.cmdWord ∧
    (s.seq = .idle ∨ i.isReserved = true) := by
  unfold State.nextMove at h
  split at h
  · split at h <;> cases h
  · next hr =>
    split at h
    · split at h <;> cases h
    · next hb =>
      split at h
      · next hc =>
        cases h
        exact ⟨by simpa using hr, by simpa using hb, hc.1, rfl, hc.2⟩
      · exact absurd h (s.phaseMove_ne.2.1 i)

/-- An event leaves. -/
theorem State.nextMove_emit (h : s.nextMove = .emit e rest) :
    s.pins.rst = false ∧ s.hasBeenReset = true ∧ s.seq = .busy (e :: rest) ∧ s.pins.accepts e = true := by
  unfold State.nextMove at h
  split at h
  · split at h <;> cases h
  · next hr =>
    split at h
    · split at h <;> cases h
    · next hb =>
      split at h
      · cases h
      · obtain h' | ⟨e', rest', hs, ha, h'⟩ | ⟨r, -, -, h'⟩ | ⟨r, -, -, h'⟩ := s.phaseMove_cases <;> rw [h'] at h <;> cases h
        exact ⟨by simpa using hr, by simpa using hb, hs, ha⟩

/-- A wait is over. -/
theorem State.nextMove_resume (h : s.nextMove = .resume rest) :
    s.pins.rst = false ∧ s.hasBeenReset = true ∧
    ((s.seq = .awaitDone rest ∧ s.pins.frameDone = true) ∨
      (s.seq = .awaitTimer rest ∧ s.pins.holdExpired = true)) := by
  unfold State.nextMove at h
  split at h
  · split at h <;> cases h
  · next hr =>
    split at h
    · split at h <;> cases h
    · next hb =>
      split at h
      · cases h
      · refine ⟨by simpa using hr, by simpa using hb, ?_⟩
        obtain h' | ⟨e', rest', -, -, h'⟩ | ⟨r, hs, ha, h'⟩ | ⟨r, hs, ha, h'⟩ := s.phaseMove_cases <;> rw [h'] at h <;> cases h
        · exact .inl ⟨hs, ha⟩
        · exact .inr ⟨hs, ha⟩

/-- With no reset asserted, after the first reset and with no command for the block, the phase moves. -/
theorem State.nextMove_phase (hr : s.pins.rst = false) (hb : s.hasBeenReset = true)
    (hc : s.pins.cmdValid = true → s.seq ≠ .idle ∧ (decode s.pins.cmdWord).isReserved = false) :
    s.nextMove = s.phaseMove := by
  unfold State.nextMove
  rw [if_neg (by simp [hr]), if_neg (by simp [hb]), if_neg]
  rintro ⟨hv, hi | hres⟩
  · exact (hc hv).1 hi
  · exact absurd hres (by simp [(hc hv).2])

/-- A command presented in `Idle` runs. -/
theorem State.nextMove_idle_run (hr : s.pins.rst = false) (hb : s.hasBeenReset = true) (hi : s.seq = .idle)
    (hv : s.pins.cmdValid = true) : s.nextMove = .run (decode s.pins.cmdWord) := by
  unfold State.nextMove
  rw [if_neg (by simp [hr]), if_neg (by simp [hb]), if_pos ⟨hv, .inl hi⟩]

end Sys2Proof.Machine
end

