-- ==== Sys2Proof/Laws/Units.lean ====
section
/-! SUPPORT. The lengths and digit ranges of the decomposer and the frame builder. -/

namespace Sys2Proof.Machine

variable (c : Cfg) (v : Int) (n : Nat) (dp : Places)

theorem Cfg.adc_cases : (c.muxEn = true ∧ c.adc = 4) ∨ (c.muxEn = false ∧ c.adc = 2) := by
  cases h : c.muxEn <;> simp [Cfg.adc, h]

theorem Cfg.adc_le_four : c.adc ≤ 4 := by
  obtain ⟨-, h⟩ | ⟨-, h⟩ := c.adc_cases <;> omega

@[simp] theorem Cfg.length_order {b : List Byte} (h : b.length = 4) : (c.order b).length = c.adc := by
  have := c.adc_le_four
  unfold Cfg.order
  split <;> simp [h, this]

theorem Cfg.mem_of_mem_order {b : List Byte} {x : Byte} (h : x ∈ c.order b) : x ∈ b := by
  unfold Cfg.order at h
  split at h
  · exact List.mem_of_mem_take (List.mem_reverse.mp h)
  · exact List.mem_of_mem_take h

@[simp] theorem Cfg.length_frame (rs : Byte) (bytes : List Byte) : (c.frame rs bytes).length = bytes.length + 3 := by
  simp [Cfg.frame]

@[simp] theorem length_decomposeDecimal : (decomposeDecimal v).length = 4 := rfl

@[simp] theorem length_decimalBytes : (decimalBytes v dp).length = 4 := by simp [decimalBytes]

@[simp] theorem length_hexBytes : (hexBytes n).length = 4 := by simp [hexBytes]

theorem hexLoop_length_le (cap t : Nat) : (hexLoop cap t).length ≤ cap := by
  induction cap generalizing t with
  | zero => simp [hexLoop]
  | succ cap ih =>
    rw [hexLoop]
    split
    · simp
    · simpa using ih _

theorem length_decomposeHex_pos : 1 ≤ (decomposeHex n).length := by simp [decomposeHex, hexLoop]

theorem length_decomposeHex_le : (decomposeHex n).length ≤ 4 := hexLoop_length_le 4 _

/-- No entry of the lookup table lights the decimal point. -/
theorem encodeDigit_point (d : Digit) : (encodeDigit d).getLsbD 7 = false := by
  revert d; decide

/-- The point of the encoder unit is its point-enable input. -/
theorem encUnit_point (d : Digit) (p : Bool) : (encUnit d p).getLsbD 7 = p := by
  cases p
  · simpa [encUnit] using encodeDigit_point d
  · simp [encUnit, overlayDecimalPoint]

end Sys2Proof.Machine
end

