-- ==== Sys2Proof/Laws/Commands.lean ====
section
/-! SUPPORT. One lemma for each command: its next state in `Idle`, over the shared operations. -/

namespace Sys2Proof.Machine

variable {s : State} (arg : Arg)

theorem exec_setBrightness_idle (h : s.seq = .idle) :
    exec (.setBrightness arg) s = .next { s with
      cfg := s.cfg.withCmd (setBrightnessBits s.cfg.cmd (brightnessBits (levelOperand arg)))
      seq := Phase.ofEvents
        (s.cfg.frame selCommand [setBrightnessBits s.cfg.cmd (brightnessBits (levelOperand arg))]) } :=
  if_pos h

theorem exec_enableMux_idle (h : s.seq = .idle) :
    exec .enableMux s = .next { s with cfg := s.cfg.withMux (setMuxBits s.cfg.cmd) true, seq := .idle } :=
  if_pos h

theorem exec_disableMux_idle (h : s.seq = .idle) :
    exec .disableMux s = .next { s with cfg := s.cfg.withMux (clearMuxBits s.cfg.cmd) false, seq := .idle } :=
  if_pos h

theorem exec_setDigitOrder_idle (h : s.seq = .idle) :
    exec (.setDigitOrder arg) s = .next { s with cfg := s.cfg.withRev (reversedOperand arg), seq := .idle } :=
  if_pos h

theorem exec_setDecimalPlaces_idle (h : s.seq = .idle) :
    exec (.setDecimalPlaces arg) s = .next { s with cfg := s.cfg.withDp (placesOperand arg), seq := .idle } :=
  if_pos h

theorem exec_clear_idle (h : s.seq = .idle) :
    exec .clear s = .next { s with
      seq := Phase.ofEvents (s.cfg.frame selDigits (List.replicate s.cfg.adc 0x00)) } :=
  if_pos h

theorem exec_sendDec_idle (h : s.seq = .idle) :
    exec (.sendDec arg) s = .next { s with
      seq := Phase.ofEvents (s.cfg.frame selDigits
        (s.cfg.order (decimalBytes (scaledInt (sext32 arg) s.cfg.dp) s.cfg.dp))) } :=
  if_pos h

theorem exec_sendDecReal_idle (h : s.seq = .idle) :
    exec (.sendDecReal arg) s = .next { s with
      seq := Phase.ofEvents (s.cfg.frame selDigits
        (s.cfg.order (decimalBytes (scaledReal arg s.cfg.dp).toNat s.cfg.dp))) } :=
  if_pos h

theorem exec_sendHex_idle (h : s.seq = .idle) :
    exec (.sendHex arg) s = .next { s with
      seq := Phase.ofEvents (s.cfg.frame selDigits (s.cfg.order (hexBytes (zext32 arg)))) } :=
  if_pos h

theorem exec_segmentTest_idle (h : s.seq = .idle) :
    exec .segmentTest s = .next { s with
      seq := Phase.ofEvents (s.cfg.frame selCommand [s.cfg.cmd ||| Config.segtestMask] ++ [.hold] ++
        s.cfg.frame selCommand [s.cfg.cmd]) } :=
  if_pos h

end Sys2Proof.Machine
end

