-- ==== Sys2Proof/Laws/Config.lean ====
section
/-! SUPPORT. Each configuration write keeps the invariant of 10_state.md R31. -/

namespace Sys2Proof.Machine

variable {c : Cfg}

/-- The part of the invariant that speaks of `CMD` and `MUX_EN`. -/
def cmdInv (cmd : Byte) (muxEn : Bool) : Bool :=
  (muxbField cmd == if muxEn then 0b111#3 else 0b000#3) && cmd.getLsbD 7 == false && cmd.getLsbD 3 == false &&
  (brtField cmd == 0b000#3 || brtField cmd == 0b001#3 || brtField cmd == 0b010#3 || brtField cmd == 0b100#3)

theorem Cfg.inv_iff : c.Inv ↔ cmdInv c.cmd c.muxEn = true := by
  have hdp : c.dp.val ≤ 4 := by omega
  obtain ⟨cmd, muxEn, rev, dp, addr⟩ := c
  simp only [Cfg.Inv, hdp, and_true]
  clear hdp
  revert cmd muxEn
  decide +kernel

theorem cmdInv_setBrightness (l : Option Level) (cmd : Byte) (m : Bool) (h : cmdInv cmd m = true) :
    cmdInv (setBrightnessBits cmd (brightnessBits l)) m = true := by
  have hl : brightnessBits l = 0x40 ∨ brightnessBits l = 0x20 ∨ brightnessBits l = 0x10 := by
    unfold brightnessBits
    split <;> simp
  revert cmd m
  rcases hl with hl | hl | hl <;> rw [hl] <;> decide +kernel

theorem cmdInv_setMux (cmd : Byte) (m : Bool) (h : cmdInv cmd m = true) : cmdInv (setMuxBits cmd) true = true := by
  revert cmd m; decide +kernel

theorem cmdInv_clearMux (cmd : Byte) (m : Bool) (h : cmdInv cmd m = true) : cmdInv (clearMuxBits cmd) false = true := by
  revert cmd m; decide +kernel

theorem Cfg.Inv.setBrightness (h : c.Inv) (l : Option Level) :
    (c.withCmd (setBrightnessBits c.cmd (brightnessBits l))).Inv :=
  Cfg.inv_iff.mpr (cmdInv_setBrightness l _ _ (Cfg.inv_iff.mp h))

theorem Cfg.Inv.setMux (h : c.Inv) : (c.withMux (setMuxBits c.cmd) true).Inv :=
  Cfg.inv_iff.mpr (cmdInv_setMux _ _ (Cfg.inv_iff.mp h))

theorem Cfg.Inv.clearMux (h : c.Inv) : (c.withMux (clearMuxBits c.cmd) false).Inv :=
  Cfg.inv_iff.mpr (cmdInv_clearMux _ _ (Cfg.inv_iff.mp h))

theorem Cfg.Inv.withRev (h : c.Inv) (b : Bool) : (c.withRev b).Inv := h

theorem Cfg.Inv.withDp (h : c.Inv) (n : Places) : (c.withDp n).Inv :=
  Cfg.inv_iff.mpr (by simpa using Cfg.inv_iff.mp h)

theorem Cfg.Inv.reset (a : BusAddr) : Cfg.Inv { cmd := 0x00, muxEn := false, rev := false, dp := 0, addr := a } :=
  Cfg.inv_iff.mpr (show cmdInv 0x00 false = true by decide)

end Sys2Proof.Machine
end

