-- ==== Sys2Proof/Laws/Frames.lean ====
section
/-! SUPPORT. Frames and the transport contract (20_memory.md R44), and what a command accepted in `Idle` does to
them. -/

namespace Sys2Proof.Machine

variable (okAddr : BusAddr → Bool) (okLength : Nat → Bool) (c : Cfg)

theorem FramePos.after_append (p : FramePos) (a b : List Ev) :
    FramePos.after okAddr okLength p (a ++ b) =
      (FramePos.after okAddr okLength p a).bind fun q => FramePos.after okAddr okLength q b := by
  induction a generalizing p with
  | nil => rfl
  | cons e es ih =>
    simp only [List.cons_append, FramePos.after]
    cases FramePos.next okAddr okLength p e with
    | none => rfl
    | some q => exact ih q

theorem FramePos.after_writes (rs : Byte) (n : Nat) (bs : List Byte) :
    FramePos.after okAddr okLength (.body rs n) (bs.map .writeByte) = some (.body rs (n + bs.length)) := by
  induction bs generalizing n with
  | nil => rfl
  | cons b bs ih =>
    simp only [List.map_cons, FramePos.after, FramePos.next, Option.bind_some, ih, List.length_cons]
    congr 2
    omega

/-- A frame of one byte to the command register, or of an allowed length to the digit register, keeps the contract. -/
theorem FramePos.after_frame (rs : Byte) (bs : List Byte)
    (h : (rs = selCommand ∧ bs.length = 1) ∨ (rs = selDigits ∧ okLength bs.length = true)) :
    FramePos.after (· == c.addr) okLength .boundary (c.frame rs bs) = some .boundary := by
  have hrs : rs = selCommand ∨ rs = selDigits := h.imp And.left And.left
  simp only [Cfg.frame, FramePos.after, FramePos.next, beq_self_eq_true, if_true, Option.bind_some, if_pos hrs,
    FramePos.after_append, FramePos.after_writes, Nat.zero_add]
  rw [if_pos h, Option.bind_some]

/-- What the pending events of one frame position allow, the whole history allows. -/
theorem FramePos.next_relax {p q : FramePos} {e : Ev}
    (h : FramePos.next (· == c.addr) (· == c.adc) p e = some q) :
    FramePos.next (fun _ => true) (fun n => n == 2 || n == 4) p e = some q := by
  have hadc := c.adc_cases
  cases p <;> cases e <;> simp only [FramePos.next] at h ⊢ <;> try exact h
  · split at h <;> simp_all
  · split at h
    · next hc =>
      rw [if_pos, ← h]
      rcases hc with hc | ⟨h1, h2⟩
      · exact .inl hc
      · refine .inr ⟨h1, ?_⟩
        simp only [beq_iff_eq] at h2
        rcases hadc with ⟨-, h⟩ | ⟨-, h⟩ <;> simp [h2, h]
    · cases h

theorem Cfg.getLast_frame (rs : Byte) (bs : List Byte) : (c.frame rs bs).getLast? = some .endFrame := by
  simp [Cfg.frame, List.getLast?_cons, List.getLast?_append]

theorem Cfg.frame_ne_nil (rs : Byte) (bs : List Byte) : c.frame rs bs ≠ [] := by simp [Cfg.frame]

end Sys2Proof.Machine
end

