-- ==== Sys2Proof/Laws/PerInstr.lean ====
section
/-! SUPPORT. Statements for each constructor of Instr. The family `Fields`: a command's word carries its opcode in
bits 35..32 and its operand in bits 31..0 (30_encoding.md R60). -/

namespace Sys2Proof

@[simp] theorem opField_cmdWord (op : Opcode) (arg : Arg) : opField (cmdWord op arg) = op := by
  refine BitVec.eq_of_getLsbD_eq fun k hk => ?_
  rw [opField, cmdWord, BitVec.getLsbD_extractLsb', BitVec.getLsbD_append]
  simp [hk]

@[simp] theorem argField_cmdWord (op : Opcode) (arg : Arg) : argField (cmdWord op arg) = arg := by
  refine BitVec.eq_of_getLsbD_eq fun k hk => ?_
  rw [argField, cmdWord, BitVec.getLsbD_extractLsb', BitVec.getLsbD_append]
  simp [hk]

namespace Laws.Fields

/-- The word of `i` has the opcode and the operand of `i` in their fields. -/
def Statement (i : Instr) : Prop := opField (encode i) = i.opcode ∧ argField (encode i) = i.argBits

theorem statement (i : Instr) : Statement i := ⟨opField_cmdWord _ _, argField_cmdWord _ _⟩

theorem setBrightness (arg : Arg) : Statement (.setBrightness arg) := statement _
theorem enableMux : Statement .enableMux := statement _
theorem disableMux : Statement .disableMux := statement _
theorem setDigitOrder (arg : Arg) : Statement (.setDigitOrder arg) := statement _
theorem setDecimalPlaces (arg : Arg) : Statement (.setDecimalPlaces arg) := statement _
theorem clear : Statement .clear := statement _
theorem sendDec (arg : Arg) : Statement (.sendDec arg) := statement _
theorem sendDecReal (arg : Arg) : Statement (.sendDecReal arg) := statement _
theorem sendHex (arg : Arg) : Statement (.sendHex arg) := statement _
theorem segmentTest : Statement .segmentTest := statement _
theorem reservedAB (op : Opcode) (arg : Arg) : Statement (.reservedAB op arg) := statement _
theorem reservedCF (op : Opcode) (arg : Arg) : Statement (.reservedCF op arg) := statement _

end Laws.Fields

end Sys2Proof
end

