-- ==== Sys2Proof/Tests/Slice0.lean ====
section
/-! SUPPORT. Tests on fixed values, taken from the tables of 95_test_vectors.md and the worked examples of the rules,
and for each statement with hypotheses a witness that meets them. -/

namespace Sys2Proof.Tests

open Sys2Proof Sys2Proof.Machine

/-! ## Helpers -/

/-- A configuration at bus address 0x38 (raw 0x70), as the tables of 95_test_vectors.md write it. -/
def config (cmd : Byte) (muxEn rev : Bool) (dp : Places) : Cfg :=
  { cmd := cmd, muxEn := muxEn, rev := rev, dp := dp, addr := 0x38 }

/-- Inputs with no port active. -/
def quiet : Pins :=
  { rst := false, rawAddr := 0, cmdValid := false, cmdWord := 0, transportAccepts := false, timerAccepts := false,
    frameDone := false, holdExpired := false }

/-- Inputs with the host presenting a word. -/
def present (w : CmdWord) : Pins := { quiet with cmdValid := true, cmdWord := w }

/-- Inputs with reset asserted. -/
def resetWith (raw : BitVec 8) : Pins := { quiet with rst := true, rawAddr := raw }

/-- A block that has been reset. -/
def block (c : Cfg) (seq : Phase) (inputs : List Pins) (sent : List Ev) : State :=
  { cfg := c, seq := seq, hasBeenReset := true, inputs := inputs, sent := sent }

/-- An idle block with a silent environment. -/
def idle (c : Cfg) : State := block c .idle [] []

/-- The next state, if there is one. -/
def after : Outcome → Option State
  | .next s => some s
  | .fault _ => none
  | .refused _ => none

/-- The new configuration and the events to emit. -/
def result (o : Outcome) : Option (Cfg × List Ev) := (after o).map fun t => (t.cfg, t.seq.pend)

/-- The refusal, if there is one. -/
def refusal : Outcome → Option Refusal
  | .next _ => none
  | .fault _ => none
  | .refused r => some r

/-- `B(0x38) rs bytes End`. -/
def sends (rs : Byte) (bytes : List Byte) : List Ev :=
  Ev.beginFrame 0x38 :: Ev.writeByte rs :: (bytes.map Ev.writeByte ++ [Ev.endFrame])

/-- The events of a command word run by an idle block (the columns of table V-DSP). -/
def eventsOf (w : CmdWord) (muxEn rev : Bool) (dp : Places) : Option (List Ev) :=
  (result (exec (decode w) (idle (config 0x00 muxEn rev dp)))).map (·.2)

/-! ## Well-formedness: the check refuses an ill-formed term of each row that has one -/

theorem test_wf_refuses_opcode_outside_AB : (Instr.reservedAB 0xC 0).wf = false := by decide
theorem test_wf_refuses_opcode_outside_CF : (Instr.reservedCF 0xB 0).wf = false := by decide
theorem test_wf_accepts_the_range_ends :
    (Instr.reservedAB 0xA 0).wf = true ∧ (Instr.reservedAB 0xB 0).wf = true ∧ (Instr.reservedCF 0xC 0).wf = true ∧
    (Instr.reservedCF 0xF 0).wf = true := by decide

/-! ## Decoding: words written out bit by bit, `OP` then `ARG` (R60, R63) -/

theorem test_decode_setBrightness : decode 0b0000_0000_0000_0000_0000_0000_0000_0000_0010 = .setBrightness 2 := by decide
theorem test_decode_enableMux : decode 0b0001_1101_1110_1010_1101_1011_1110_1110_1111 = .enableMux := by decide
theorem test_decode_disableMux : decode 0b0010_0000_0000_0000_0000_0000_0000_0000_0000 = .disableMux := by decide
theorem test_decode_setDigitOrder : decode 0b0011_1000_0000_0000_0000_0000_0000_0000_0001 = .setDigitOrder 0x80000001 := by
  decide
theorem test_decode_setDecimalPlaces :
    decode 0b0100_1111_1111_1111_1111_1111_1111_1111_1111 = .setDecimalPlaces 0xFFFFFFFF := by decide
theorem test_decode_clear : decode 0b0101_0000_0000_0000_0000_0000_0000_0000_0000 = .clear := by decide
theorem test_decode_sendDec : decode 0b0110_0000_0000_0000_0000_0000_0100_1101_0010 = .sendDec 1234 := by decide
theorem test_decode_sendDecReal : decode 0b0111_0100_0001_0100_0000_0000_0000_0000_0000 = .sendDecReal 0x41400000 := by
  decide
theorem test_decode_sendHex : decode 0b1000_0000_0000_0000_0000_0000_0001_1010_0011 = .sendHex 0x1A3 := by decide
theorem test_decode_segmentTest : decode 0b1001_0000_0000_0000_0000_0000_0000_0000_0000 = .segmentTest := by decide
theorem test_decode_reservedAB :
    decode 0b1010_0000_0000_0000_0000_0000_0000_0000_0000 = .reservedAB 0xA 0 ∧
    decode 0b1011_0000_0000_0000_0000_0000_0000_0000_0001 = .reservedAB 0xB 1 := by decide
theorem test_decode_reservedCF :
    decode 0b1100_0000_0000_0000_0000_0000_0000_0000_0000 = .reservedCF 0xC 0 ∧
    decode 0b1111_1111_1111_1111_1111_1111_1111_1111_1111 = .reservedCF 0xF 0xFFFFFFFF := by decide

/-- The opcode table's numbering: 40 bits hold the 36-bit word; a bit above bit 35 is no word. -/
theorem test_decodeTableWord :
    decodeTableWord 40 0x6000004D2 = some (.sendDec 1234) ∧ decodeTableWord 40 0x1000000000 = none := by decide +kernel

/-! ## The units (tables V-ENC, V-DEC, V-HEX, V-FXI, V-FXR) -/

theorem test_encode : encodeDigit 0xA = 0x77 ∧ encUnit 2 true = 0xDB ∧ encUnit 5 false = 0x6D := by decide
theorem test_decomposeDecimal :
    decomposeDecimal 1234 = [4, 3, 2, 1] ∧ decomposeDecimal 12345 = [5, 4, 3, 2] ∧ decomposeDecimal (-1) = [9, 9, 9, 9] ∧
    decomposeDecimal (-10000) = [0, 0, 0, 0] := by decide +kernel
theorem test_decomposeHex :
    decomposeHex 0 = [0] ∧ decomposeHex 0x1A3 = [3, 0xA, 1] ∧ decomposeHex 0x100 = [0, 0, 1] ∧
    decomposeHex 0x12345 = [5, 4, 3, 2] ∧ decomposeHex 0x10000 = [0] := by decide +kernel
theorem test_scaledInt : scaledInt 12 2 = 1200 ∧ scaledInt (-2 ^ 31) 4 = -21474836480000 := by decide +kernel
theorem test_scaledReal_in_range :
    scaledReal 0x41400000 2 = 1200 ∧ scaledReal 0x3E947AE1 2 = 29 ∧ scaledReal 0x3F866666 2 = 104 ∧
    scaledReal 0x3DCCCCCD 1 = 1 ∧ scaledReal 0x40490FD0 3 = 3141 ∧ scaledReal 0x3F9E0419 4 = 12345 ∧
    scaledReal 0x40D1B646 4 = 65535 ∧ scaledReal 0x477FFFE6 0 = 65535 ∧ scaledReal 0xBF000000 0 = 0 ∧
    scaledReal 0x80000000 0 = 0 ∧ scaledReal 0xBDB851EC 1 = 0 ∧ scaledReal 0x00000001 4 = 0 := by decide +kernel
/-- The rows of V-FXR marked "draw": no value is fixed. -/
theorem test_scaledReal_open :
    (realProduct 0x47800000 0).toU16 = none ∧ (realProduct 0xBF800000 0).toU16 = none ∧
    (realProduct 0x40E00000 4).toU16 = none ∧ (realProduct 0x7F800000 0).toU16 = none ∧
    (realProduct 0xFF800000 0).toU16 = none ∧ (realProduct 0x7FC00000 2).toU16 = none ∧
    (realProduct 0x7F7FFFFF 1).toU16 = none := by decide +kernel

/-! ## The configuration commands (table V-CFG) -/

theorem test_setBrightness :
    result (exec (.setBrightness 0) (idle (config 0x47 true false 0))) = some (config 0x17 true false 0, sends 0 [0x17]) ∧
    result (exec (.setBrightness 1) (idle (config 0x20 false false 0))) = some (config 0x20 false false 0, sends 0 [0x20]) ∧
    result (exec (.setBrightness 2) (idle (config 0x00 false false 0))) = some (config 0x40 false false 0, sends 0 [0x40]) ∧
    result (exec (.setBrightness 0xFFFFFFFF) (idle (config 0x00 false false 0))) =
      some (config 0x10 false false 0, sends 0 [0x10]) := by decide +kernel
theorem test_enableMux :
    result (exec (decode 0x1_DEAD_BEEF) (idle (config 0x40 false false 0))) = some (config 0x47 true false 0, []) := by
  decide +kernel
theorem test_disableMux :
    result (exec .disableMux (idle (config 0x47 true false 0))) = some (config 0x40 false false 0, []) := by decide +kernel
theorem test_setDigitOrder :
    result (exec (.setDigitOrder 0x80000000) (idle (config 0x00 false false 0))) = some (config 0x00 false true 0, []) ∧
    result (exec (.setDigitOrder 0) (idle (config 0x00 false true 0))) = some (config 0x00 false false 0, []) := by
  decide +kernel
theorem test_setDecimalPlaces :
    result (exec (.setDecimalPlaces 4) (idle (config 0x00 false false 3))) = some (config 0x00 false false 4, []) ∧
    result (exec (.setDecimalPlaces 5) (idle (config 0x00 false false 3))) = some (config 0x00 false false 0, []) ∧
    result (exec (.setDecimalPlaces 0xFFFFFFFF) (idle (config 0x00 false false 3))) = some (config 0x00 false false 0, []) ∧
    result (exec (.setDecimalPlaces 0x80000000) (idle (config 0x00 false false 3))) = some (config 0x00 false false 0, []) := by
  decide +kernel

/-! ## The display commands (table V-DSP and the SEGMENT_TEST table) -/

theorem test_clear :
    eventsOf 0x5_0000_0000 true true 0 = some (sends 1 [0, 0, 0, 0]) ∧
    eventsOf 0x5_0000_0000 false false 0 = some (sends 1 [0, 0]) := by decide +kernel
theorem test_sendDec :
    eventsOf 0x6_0000_04D2 true false 0 = some (sends 1 [0x66, 0x4F, 0x5B, 0x06]) ∧
    eventsOf 0x6_0000_04D2 true true 1 = some (sends 1 [0x5B, 0x4F, 0xE6, 0x3F]) ∧
    eventsOf 0x6_0000_04D2 false true 1 = some (sends 1 [0xE6, 0x3F]) ∧
    eventsOf 0x6_0000_04D2 true false 3 = some (sends 1 [0x3F, 0x3F, 0x3F, 0xE6]) ∧
    eventsOf 0x6_0000_04D2 true false 4 = some (sends 1 [0x3F, 0x3F, 0x3F, 0x3F]) := by decide +kernel
theorem test_sendDec_negative : eventsOf 0x6_FFFF_FFFF false true 0 = some (sends 1 [0x6F, 0x6F]) := by decide +kernel
theorem test_sendDecReal :
    eventsOf 0x7_4140_0000 true false 2 = some (sends 1 [0x3F, 0x3F, 0xDB, 0x06]) ∧
    eventsOf 0x7_4049_0FD0 true true 1 = some (sends 1 [0x3F, 0x3F, 0xCF, 0x06]) ∧
    eventsOf 0x7_3F86_6666 true false 2 = some (sends 1 [0x66, 0x3F, 0x86, 0x3F]) := by decide +kernel
theorem test_sendHex :
    eventsOf 0x8_0000_01A3 true false 2 = some (sends 1 [0x4F, 0x77, 0x06, 0x00]) ∧
    eventsOf 0x8_0000_01A3 true true 0 = some (sends 1 [0x00, 0x06, 0x77, 0x4F]) ∧
    eventsOf 0x8_0000_0000 false true 0 = some (sends 1 [0x00, 0x3F]) ∧
    eventsOf 0x8_0001_2345 true false 0 = some (sends 1 [0x6D, 0x66, 0x4F, 0x5B]) ∧
    eventsOf 0x8_0000_0100 true false 0 = some (sends 1 [0x3F, 0x3F, 0x06, 0x00]) := by decide +kernel
/-- The mask is open, so the table's first bytes (with mask 0x08) are written with the mask. -/
theorem test_segmentTest :
    result (exec .segmentTest (idle (config 0x47 true false 0))) =
      some (config 0x47 true false 0,
        [.beginFrame 0x38, .writeByte 0x00, .writeByte (0x47 ||| Config.segtestMask), .endFrame, .hold,
         .beginFrame 0x38, .writeByte 0x00, .writeByte 0x47, .endFrame]) := rfl

/-! ## Steps -/

/-- Program P4 of 95_test_vectors.md: a reserved word is refused. -/
theorem test_reserved_refused :
    refusal (step (block (config 0x00 false false 0) .idle [present 0xA_0000_0000] [])) = some (.reservedWord 0xA 0) ∧
    refusal (step (block (config 0x00 false false 0) .idle [present 0xC_0000_0001] [])) = some (.reservedWord 0xC 1) := by
  decide +kernel
/-- R181's example: raw 0x76 gives address 0x3B. -/
theorem test_reset_step :
    after (step (block (config 0x47 true true 3) .idle [resetWith 0x76] [.hold])) =
      some { cfg := { cmd := 0, muxEn := false, rev := false, dp := 0, addr := 0x3B }, seq := .idle, hasBeenReset := true,
             inputs := [], sent := [.hold] } := by decide +kernel
/-- R162: reset while a command is in progress is refused. -/
theorem test_reset_while_busy :
    refusal (step (block (config 0x00 false false 0) (.busy [.endFrame]) [resetWith 0x70] [])) = some .resetWhileBusy := by
  decide +kernel
/-- R46 `emit`: an `End` leaves the block waiting for `frame_done`. -/
theorem test_emit_end :
    after (step (block (config 0x00 false false 0) (.busy [.endFrame]) [{ quiet with transportAccepts := true }] [])) =
      some (block (config 0x00 false false 0) (.awaitDone []) [] [.endFrame]) := by decide +kernel
/-- R46 `emit`: only the timer accepts a `Hold`. -/
theorem test_emit_hold :
    after (step (block (config 0x00 false false 0) (.busy [.hold, .endFrame]) [{ quiet with timerAccepts := true }] [])) =
      some (block (config 0x00 false false 0) (.awaitTimer [.endFrame]) [] [.hold]) ∧
    after (step (block (config 0x00 false false 0) (.busy [.hold, .endFrame]) [{ quiet with transportAccepts := true }] [])) =
      some (block (config 0x00 false false 0) (.busy [.hold, .endFrame]) [] []) := by decide +kernel
/-- The placed word is the very next thing that runs after reset. -/
theorem test_placed_word :
    (after (step (State.reset.withFetchWord 40 0x100000000))).map (fun t => (t.cfg.cmd, t.cfg.muxEn, t.inputs)) =
      some (0x07, true, []) := by decide +kernel

/-! ## The assembler (R67's examples) -/

theorem test_assemble_real :
    realText "1.05".toList = some 0x3F866666 ∧ realText "-0.5".toList = some 0xBF000000 ∧
    realText "3.14159".toList = some 0x40490FD0 ∧ realText "#0x7FC00000".toList = some 0x7FC00000 := by decide +kernel
theorem test_assemble_pseudo :
    assembleLine "INIT4 HIGH" = some [.enableMux, .setBrightness 2] ∧
    assembleLine "SHOW_FIXED 12.0, 2" = some [.setDecimalPlaces 2, .sendDecReal 0x41400000] ∧
    assembleLine "; nothing" = some [] ∧ assembleLine "CLEAR #1" = none := by decide +kernel

/-! ## Witnesses: for each statement with hypotheses, inputs that meet them, one clause after the other -/

/-- A busy block's configuration and its inputs. -/
def c4 : Cfg := config 0x47 true false 2

/-- LookupTableFacts (equal encodings), OverlaySetsOnlyThePointBit and EncoderUnitOutput (the last bit below the
point), DecimalDigitsOfFloorRemainder (the last digit), DecimalDecompositionFacts (a digit). -/
theorem witness_units :
    (∃ d e : Digit, encodeDigit d = encodeDigit e) ∧ (∃ k, k < 7 ∧ k = 6) ∧ (∃ k, k < 4 ∧ k = 3) ∧
    (∃ d : Digit, d ∈ decomposeDecimal 9999) := ⟨⟨0, 0, rfl⟩, ⟨6, by decide⟩, ⟨3, by decide⟩, ⟨9, by decide +kernel⟩⟩

/-- HexLoopDigits and HexDecompositionFacts: nothing left, the last of four digits, zero, not zero, a larger cap. -/
theorem witness_hex :
    (∃ v k, k < (decomposeHex v).length ∧ k = 3) ∧ (∃ v k, 1 ≤ k ∧ k < (decomposeHex v).length) ∧
    (∃ v, v % 0x10000 = 0 ∧ v ≠ 0) ∧ (∃ v, v % 0x10000 ≠ 0) ∧ (∃ cap, 4 ≤ cap) ∧
    (∃ v, ∃ d : Digit, d ∈ decomposeHex v ∧ d = 0xF) :=
  ⟨⟨0xFFFF, 3, by decide +kernel⟩, ⟨0x10, 1, by decide +kernel⟩, ⟨0x10000, by decide⟩, ⟨0x1, by decide⟩, ⟨4, by decide⟩,
    ⟨0xFFFF, 0xF, by decide +kernel⟩⟩

/-- RealScalingTruncatesOrIsOpen: a product that is NaN, an infinity, -1.0 and a value above it, 65536.0 and one below it;
a NaN operand and both infinities. -/
theorem witness_real :
    (∃ a d, (f32 a).mul (f32 (p10f d)) = .nan) ∧ (∃ a d neg, (f32 a).mul (f32 (p10f d)) = .inf neg) ∧
    (∃ a d m, (f32 a).mul (f32 (p10f d)) = .fin true m ∧ 2 ^ 149 ≤ m) ∧
    (∃ a d m, (f32 a).mul (f32 (p10f d)) = .fin true m ∧ m < 2 ^ 149) ∧
    (∃ a d m, (f32 a).mul (f32 (p10f d)) = .fin false m ∧ 65536 * 2 ^ 149 ≤ m) ∧
    (∃ a d m, (f32 a).mul (f32 (p10f d)) = .fin false m ∧ m < 65536 * 2 ^ 149) ∧
    (∃ a, f32 a = .nan) ∧ (∃ a, f32 a = .inf false) ∧ (∃ a, f32 a = .inf true) :=
  ⟨⟨0x7FC00000, 2, by decide +kernel⟩, ⟨0xFF800000, 0, true, by decide +kernel⟩,
    ⟨0xBF800000, 0, 2 ^ 149, by decide +kernel⟩, ⟨0xBF7FFFFF, 0, 0xFFFFFF * 2 ^ 125, by decide +kernel⟩,
    ⟨0x47800000, 0, 65536 * 2 ^ 149, by decide +kernel⟩, ⟨0x477FFFFF, 0, 0xFFFFFF * 2 ^ 141, by decide +kernel⟩,
    ⟨0x7F800001, by decide +kernel⟩, ⟨0x7F800000, by decide +kernel⟩, ⟨0xFF800000, by decide +kernel⟩⟩

/-- MultiplyRoundsToNearestEven: a finite product; a tie, 1.5 times the value after 1.0; the first infinite product and
the last finite one; zero, with its sign. -/
theorem witness_multiply :
    F32.mul (.fin true (2 ^ 149)) (.fin false (2 ^ 149)) = .fin true (2 ^ 149) ∧
    (F32.mul (.fin false ((2 ^ 23 + 1) * 2 ^ 126)) (.fin false (3 * 2 ^ 148)) =
      .fin false ((2 ^ 23 + 2 ^ 22 + 2) * 2 ^ 126) ∧
      2 * ((2 ^ 23 + 1) * 2 ^ 126 * (3 * 2 ^ 148)) =
        ((2 ^ 23 + 2 ^ 22 + 2) * 2 ^ 126 + (2 ^ 23 + 2 ^ 22 + 1) * 2 ^ 126) * 2 ^ 149) ∧
    F32.mul (.fin false ((2 ^ 25 - 1) * 2 ^ 252)) (.fin false (2 ^ 149)) = .inf false ∧
    F32.mul (.fin false ((2 ^ 25 - 1) * 2 ^ 252 - 1)) (.fin false (2 ^ 149)) = .fin false ((2 ^ 24 - 1) * 2 ^ 253) ∧
    F32.mul (.fin true 0) (.fin false (2 ^ 149)) = .fin true 0 := by
  decide +kernel

/-- FormatsReadOrIgnoreArg, DecodeOfEncode (both ends of each reserved row), ReservedWordsRefused (the first and the last
reserved opcode, in `Idle` and while a command is in progress; the last assigned opcode). -/
theorem witness_encoding :
    (∃ i : Instr, i = .clear) ∧ (Instr.reservedAB 0xB 0xFFFFFFFF).wf = true ∧ (Instr.reservedCF 0xC 0).wf = true ∧
    (∃ s : State, (0xA : Opcode) ≤ 0xA ∧ s.seq = .idle ∧ s.pins.rst = false ∧ s.hasBeenReset = true ∧
      s.pins.cmdValid = true ∧ s.pins.cmdWord = cmdWord 0xA 0) ∧
    (∃ s : State, (0xA : Opcode) ≤ 0xF ∧ s.seq ≠ .idle ∧ s.pins.rst = false ∧ s.hasBeenReset = true ∧
      s.pins.cmdValid = true ∧ s.pins.cmdWord = cmdWord 0xF 1) ∧
    (∃ s : State, (9 : Opcode) ≤ 9 ∧ s.seq = .idle) :=
  ⟨⟨.clear, rfl⟩, by decide, by decide, ⟨block c4 .idle [present (cmdWord 0xA 0)] [], by decide⟩,
    ⟨block c4 (.busy [.endFrame]) [present (cmdWord 0xF 1)] [], by decide⟩, ⟨idle c4, by decide⟩⟩

/-- BrightnessLevelIsAView: the four views, and an accepted command. -/
theorem witness_brightness :
    brtField (config 0x47 true false 0).cmd = 0b100#3 ∧ brtField (config 0x20 false false 0).cmd = 0b010#3 ∧
    brtField (config 0x10 false false 0).cmd = 0b001#3 ∧ brtField (config 0x07 true false 0).cmd = 0b000#3 ∧
    (∃ s t : State, s.seq = .idle ∧ exec (.setBrightness 3) s = .next t) :=
  ⟨by decide, by decide, by decide, by decide, ⟨idle c4, _, rfl, rfl⟩⟩

/-- SetBrightnessResult, EnableMuxResult, DisableMuxResult, SetDigitOrderResult, SetDecimalPlacesResult (an operand in the
range and the ones beside it), ClearResult, SendDecResult, SendDecRealResult, SendHexResult, SegmentTestResult: an idle
block in each digit mode; for SendHexResult a digit below and one at the length; for SendDecRealResult a product that is
NaN, -1.0 and 65536.0. -/
theorem witness_results :
    (∃ s : State, s.seq = .idle ∧ s.cfg.muxEn = true) ∧ (∃ s : State, s.seq = .idle ∧ s.cfg.muxEn = false) ∧
    (0 ≤ (4 : Arg).toInt ∧ (4 : Arg).toInt ≤ 4) ∧ ¬ (5 : Arg).toInt ≤ 4 ∧ ¬ 0 ≤ (0xFFFFFFFF : Arg).toInt ∧
    2 < (decomposeHex 0x1A3).length ∧ ¬ 3 < (decomposeHex 0x1A3).length ∧
    (f32 0x7FC00000).mul (f32 (p10f 2)) = .nan ∧ ((f32 0xBF800000).mul (f32 (p10f 0))).leNegOne = true ∧
    ((f32 0x47800000).mul (f32 (p10f 0))).geTwo16 = true :=
  ⟨⟨idle c4, by decide⟩, ⟨idle (config 0 false false 0), by decide⟩, by decide +kernel⟩

/-- DecimalPointPosition and PointOutsideSentDigits: 2-digit mode with `DP` 2 and 3, and `DP` 4 in either mode. -/
theorem witness_point :
    (∃ (c : Cfg) (b : Byte), c.muxEn = false ∧ c.dp = 2 ∧ b ∈ c.order (decimalBytes 1234 c.dp)) ∧
    (∃ (c : Cfg) (b : Byte), c.muxEn = false ∧ c.dp = 3 ∧ b ∈ c.order (decimalBytes 1234 c.dp)) ∧
    (∃ (c : Cfg) (b : Byte), c.muxEn = true ∧ c.dp = 4 ∧ b ∈ c.order (decimalBytes 1234 c.dp)) ∧
    (∃ s : State, s.seq = .idle ∧ s.cfg.muxEn = false) :=
  ⟨⟨config 0 false false 2, 0x66, by decide +kernel⟩, ⟨config 0 false true 3, 0x66, by decide +kernel⟩,
    ⟨config 7 true false 4, 0x66, by decide +kernel⟩, ⟨idle (config 0 false false 0), by decide⟩⟩

/-- DisplayCommandsKeepConfiguration, FramesOfEachCommand: every display command answers a next state in `Idle`; a byte
other than the pointed one. -/
theorem witness_display :
    (∃ s t : State, s.seq = .idle ∧ exec .clear s = .next t) ∧ (∃ s t : State, s.seq = .idle ∧ exec (.sendHex 1) s = .next t) ∧
    (∃ s t : State, s.seq = .idle ∧ exec (.sendDec 1) s = .next t) ∧
    (∃ s t : State, s.seq = .idle ∧ exec (.sendDecReal 1) s = .next t) ∧
    (∃ s t : State, s.seq = .idle ∧ exec .segmentTest s = .next t) ∧
    (∃ x, (decimalBytes 1234 2)[3]? = some x ∧ dpPos 2 ≠ some 3) :=
  ⟨⟨idle c4, _, rfl, rfl⟩, ⟨idle c4, _, rfl, rfl⟩, ⟨idle c4, _, rfl, rfl⟩, ⟨idle c4, _, rfl, rfl⟩, ⟨idle c4, _, rfl, rfl⟩,
    ⟨0x06, by decide +kernel⟩⟩

/-- CommandByteOnlyFromBrightnessAndTest: a frame to register 0 among the pending events, of each of the two. -/
theorem witness_commandByte :
    (∃ (s t : State) (a : BusAddr) (pre post : List Ev), s.seq = .idle ∧ exec (.setBrightness 2) s = .next t ∧
      t.seq.pend = pre ++ .beginFrame a :: .writeByte 0x00 :: post) ∧
    (∃ (s t : State) (a : BusAddr) (pre post : List Ev), s.seq = .idle ∧ exec .segmentTest s = .next t ∧
      t.seq.pend = pre ++ .beginFrame a :: .writeByte 0x00 :: post ∧ pre ≠ []) :=
  ⟨⟨idle c4, _, 0x38, [], [.writeByte 0x47, .endFrame], rfl, rfl, rfl⟩,
    ⟨idle c4, _, 0x38, [.beginFrame 0x38, .writeByte 0, .writeByte (0x47 ||| Config.segtestMask), .endFrame, .hold],
      [.writeByte 0x47, .endFrame], rfl, rfl, rfl, by simp⟩⟩

/-- ResetState: a block in `Idle` after and before its first reset; AddressConversion: a step with and one without
reset. -/
theorem witness_reset :
    (∃ s : State, s.pins.rst = true ∧ s.hasBeenReset = true ∧ s.seq = .idle) ∧
    (∃ s : State, s.pins.rst = true ∧ s.hasBeenReset = false ∧ s.seq = .idle) ∧
    (∃ s t : State, s.pins.rst = true ∧ step s = .next t) ∧ (∃ s t : State, s.pins.rst = false ∧ step s = .next t) :=
  ⟨⟨block c4 .idle [resetWith 0x71] [], by decide⟩,
    ⟨{ block c4 .idle [resetWith 0x71] [] with hasBeenReset := false }, by decide⟩,
    ⟨block c4 .idle [resetWith 0x71] [], _, by decide, rfl⟩, ⟨idle c4, _, by decide, rfl⟩⟩

/-- StepRunsPresentedCommand, CommandPortHandshake (ready, and busy with a command waiting), PlacedWordRunsNext. -/
theorem witness_commandPort :
    (∃ s : State, s.hasBeenReset = true ∧ s.cmdReady = true ∧ s.pins.cmdValid = true ∧ decode s.pins.cmdWord = .clear) ∧
    (∃ (s t : State) (p : Pins), s.hasBeenReset = true ∧ s.inputs = [p] ∧ p.rst = false ∧ p.cmdValid = true ∧ s.seq ≠ .idle ∧
      (decode p.cmdWord).isReserved = false ∧ step s = .next t) ∧
    (∃ i, decodeTableWord 40 0x900000000 = some i) :=
  ⟨⟨block c4 .idle [present 0x500000000] [], by decide⟩,
    ⟨block c4 (.awaitDone []) [{ present 0x500000000 with frameDone := true }] [], _,
      { present 0x500000000 with frameDone := true }, by decide, rfl, by decide, by decide, by decide, by decide, rfl⟩,
    ⟨.segmentTest, by decide +kernel⟩⟩

/-- SequencerTransitions and SimultaneousEvents: each kind of move, and each input absent; PulsesIgnoredOutsideTheirPhase:
a pulse in another phase. -/
theorem witness_moves :
    (∃ (i : Instr) (s : State), s.seq = .idle ∧ i.isReserved = false) ∧
    (∃ s : State, s.hasBeenReset = true ∧ s.HostLegal ∧ s.pins.rst = false ∧ s.seq = .busy [.hold, .endFrame] ∧
      s.pins.accepts .hold = true) ∧
    (∃ s : State, s.hasBeenReset = true ∧ s.HostLegal ∧ s.pins.rst = false ∧ s.seq = .busy [.endFrame] ∧
      s.pins.accepts .endFrame = true) ∧
    (∃ s : State, s.hasBeenReset = true ∧ s.HostLegal ∧ s.pins.rst = false ∧ s.seq = .awaitDone [] ∧
      s.pins.frameDone = true) ∧
    (∃ s : State, s.hasBeenReset = true ∧ s.HostLegal ∧ s.pins.rst = false ∧ s.seq = .awaitTimer [.endFrame] ∧
      s.pins.holdExpired = true) ∧
    (∃ s : State, s.hasBeenReset = true ∧ s.pins.rst = true ∧ s.seq ≠ .idle) ∧
    (∃ s : State, s.hasBeenReset = true ∧ s.pins.rst = false ∧ s.seq = .idle ∧ s.pins.cmdValid = false) ∧
    (∃ (s : State) (p : Pins), s.inputs = [p] ∧ p.frameDone = true ∧ p.holdExpired = true ∧
      (∀ pend, s.seq ≠ .awaitDone pend) ∧ ∀ pend, s.seq ≠ .awaitTimer pend) :=
  ⟨⟨.clear, idle c4, by decide⟩,
    ⟨block c4 (.busy [.hold, .endFrame]) [Pins.cooperative] [], rfl, ⟨by decide, by decide⟩, by decide, rfl, by decide⟩,
    ⟨block c4 (.busy [.endFrame]) [Pins.cooperative] [], rfl, ⟨by decide, by decide⟩, by decide, rfl, by decide⟩,
    ⟨block c4 (.awaitDone []) [Pins.cooperative] [], rfl, ⟨by decide, by decide⟩, by decide, rfl, by decide⟩,
    ⟨block c4 (.awaitTimer [.endFrame]) [Pins.cooperative] [], rfl, ⟨by decide, by decide⟩, by decide, rfl, by decide⟩,
    ⟨block c4 (.busy [.endFrame]) [resetWith 0x70] [], by decide⟩, ⟨idle c4, by decide⟩,
    ⟨block c4 (.busy [.endFrame]) [Pins.cooperative] [], Pins.cooperative, rfl, rfl, rfl, nofun, nofun⟩⟩

/-- NothingRunsBeforeTheFirstReset: a command, silence and a reset. -/
theorem witness_beforeReset :
    (∃ s : State, s.hasBeenReset = false ∧ s.pins.rst = false ∧ s.pins.cmdValid = true) ∧
    (∃ s : State, s.hasBeenReset = false ∧ s.pins.rst = false ∧ s.pins.cmdValid = false) ∧
    (∃ s : State, s.hasBeenReset = false ∧ s.pins.rst = true) :=
  ⟨⟨{ block c4 .idle [present 0x500000000] [] with hasBeenReset := false }, by decide⟩,
    ⟨{ idle c4 with hasBeenReset := false }, by decide⟩,
    ⟨{ block c4 .idle [resetWith 0x70] [] with hasBeenReset := false }, by decide⟩⟩

/-- StalledBlockWaits, LegalStepsNeverStop: each of the three waits. -/
theorem witness_stalled :
    (∃ s : State, s.hasBeenReset = true ∧ s.HostLegal ∧ s.pins.rst = false ∧
      ∃ e rest, s.seq = .busy (e :: rest) ∧ s.pins.accepts e = false) ∧
    (∃ s : State, s.hasBeenReset = true ∧ s.HostLegal ∧ s.pins.rst = false ∧
      ∃ rest, s.seq = .awaitDone rest ∧ s.pins.frameDone = false) ∧
    (∃ s : State, s.hasBeenReset = true ∧ s.HostLegal ∧ s.pins.rst = false ∧
      ∃ rest, s.seq = .awaitTimer rest ∧ s.pins.holdExpired = false) :=
  ⟨⟨block c4 (.busy [.endFrame]) [] [], rfl, ⟨by decide, by decide⟩, by decide, _, _, rfl, by decide⟩,
    ⟨block c4 (.awaitDone []) [] [], rfl, ⟨by decide, by decide⟩, by decide, _, rfl, by decide⟩,
    ⟨block c4 (.awaitTimer [.endFrame]) [] [], rfl, ⟨by decide, by decide⟩, by decide, _, rfl, by decide⟩⟩

/-- EventsLeaveInOrder: a step in `Idle` and one that emits; ConfigurationWriters: a step that accepts. -/
theorem witness_steps :
    (∃ s t : State, s.hasBeenReset = true ∧ s.pins.rst = false ∧ step s = .next t ∧ s.seq = .idle) ∧
    (∃ s t : State, s.hasBeenReset = true ∧ s.pins.rst = false ∧ step s = .next t ∧ s.seq ≠ .idle ∧ t.sent ≠ s.sent) ∧
    (∃ s t : State, s.pins.rst = false ∧ step s = .next t ∧ t.cfg.cmd ≠ s.cfg.cmd ∧ t.cfg.muxEn ≠ s.cfg.muxEn) :=
  ⟨⟨idle c4, _, rfl, by decide, rfl, rfl⟩,
    ⟨block c4 (.busy [.endFrame]) [Pins.cooperative] [], _, rfl, by decide, rfl, by decide, by decide⟩,
    ⟨block c4 .idle [present 0x200000000] [], _, by decide, rfl, by decide, by decide⟩⟩

/-- A frame in progress, waiting for its `frame_done`, that meets the invariant. -/
def waiting (inputs : List Pins) : State :=
  block c4 (.awaitDone []) inputs [.beginFrame 0x38, .writeByte 0x00, .writeByte 0x47, .endFrame]

theorem c4_inv : c4.Inv := by unfold Cfg.Inv; decide

theorem waiting_inv (inputs : List Pins) : (waiting inputs).Inv :=
  ⟨nofun, fun _ => ⟨c4_inv, rfl, ⟨.inl rfl, rfl⟩⟩⟩

/-- An idle block meets the invariant. -/
theorem idle_inv (inputs : List Pins) : (block c4 .idle inputs []).Inv :=
  ⟨nofun, fun _ => ⟨c4_inv, rfl, ⟨.inl rfl, trivial⟩⟩⟩

/-- StepKeepsInvariant, ReadyReturnsAfterLastFrame. -/
theorem witness_ready :
    ∃ s t : State, s.Inv ∧ s.hasBeenReset = true ∧ s.seq ≠ .idle ∧ step s = .next t ∧ t.seq = .idle :=
  ⟨waiting [Pins.cooperative], _, waiting_inv _, rfl, by decide, rfl, rfl⟩

/-- RunsKeepConfigurationInvariant: a run that accepts ENABLE_MUX. -/
theorem witness_run :
    ∃ (k : Nat) (s t : State) (a : BusAddr), s.hasBeenReset = true ∧ s.seq = .idle ∧
      s.cfg = { cmd := 0x00, muxEn := false, rev := false, dp := 0, addr := a } ∧ (∀ p ∈ s.inputs, p.rst = false) ∧
      Host.Core.run core k s = .next t ∧ t.cfg.muxEn = true :=
  ⟨1, block (config 0 false false 0) .idle [present 0x100000000] [], _, 0x38, rfl, rfl, rfl, by decide, rfl, rfl⟩

/-- CooperativeEnvironmentDrains: one step to `Idle`. -/
theorem witness_drain :
    ∃ (s : State) (rest : List Pins), s.Inv ∧ s.hasBeenReset = true ∧ s.seq ≠ .idle ∧
      s.inputs = List.replicate s.seq.drainSteps Pins.cooperative ++ rest :=
  ⟨waiting [Pins.cooperative], [], waiting_inv _, rfl, by decide, rfl⟩

/-- AcceptedCommandCompletes: SET_BRIGHTNESS, four events and five steps. -/
theorem witness_completes :
    ∃ (s u : State) (p : Pins) (rest : List Pins), s.Inv ∧ s.hasBeenReset = true ∧ s.seq = .idle ∧ p.rst = false ∧
      p.cmdValid = true ∧ exec (decode p.cmdWord) s = .next u ∧
      s.inputs = p :: (List.replicate u.seq.drainSteps Pins.cooperative ++ rest) ∧ u.seq.drainSteps = 5 :=
  ⟨block c4 .idle (present 0x000000001 :: List.replicate 5 Pins.cooperative) [], _, present 0x000000001, [], idle_inv _, rfl,
    rfl, rfl, rfl, rfl, rfl, rfl⟩

end Sys2Proof.Tests
end

section
/-! SUPPORT. What each command does to the configuration and which events it leaves to emit, as one function of the
command, and what a step can do to the configuration (20_memory.md R46, 10_state.md R20). -/

namespace Sys2Proof.Machine

variable {s t : State} {i : Instr}

/-- The configuration after command `i` is accepted (42_config_commands.md R110 to R114, 43_display_commands.md R138);
`exec_eq_accept_afterCmd` ties it to `exec`. -/
def Cfg.afterCmd (c : Cfg) (i : Instr) : Cfg :=
  match i with
  | .setBrightness arg => c.withCmd (setBrightnessBits c.cmd (brightnessBits (levelOperand arg)))
  | .enableMux => c.withMux (setMuxBits c.cmd) true
  | .disableMux => c.withMux (clearMuxBits c.cmd) false
  | .setDigitOrder arg => c.withRev (reversedOperand arg)
  | .setDecimalPlaces arg => c.withDp (placesOperand arg)
  | .clear => c
  | .sendDec _ => c
  | .sendDecReal _ => c
  | .sendHex _ => c
  | .segmentTest => c
  | .reservedAB _ _ => c
  | .reservedCF _ _ => c

/-- The events command `i` leaves to emit; `exec_eq_accept_afterCmd` ties it to `exec`. -/
def Cfg.eventsOf (c : Cfg) (i : Instr) : List Ev :=
  match i with
  | .setBrightness arg => c.frame selCommand [setBrightnessBits c.cmd (brightnessBits (levelOperand arg))]
  | .enableMux => []
  | .disableMux => []
  | .setDigitOrder _ => []
  | .setDecimalPlaces _ => []
  | .clear => c.frame selDigits (List.replicate c.adc 0x00)
  | .sendDec arg => c.frame selDigits (c.order (decimalBytes (scaledInt (sext32 arg) c.dp) c.dp))
  | .sendDecReal arg => c.frame selDigits (c.order (decimalBytes (scaledReal arg c.dp).toNat c.dp))
  | .sendHex arg => c.frame selDigits (c.order (hexBytes (zext32 arg)))
  | .segmentTest => c.frame selCommand [c.cmd ||| Config.segtestMask] ++ [.hold] ++ c.frame selCommand [c.cmd]
  | .reservedAB _ _ => []
  | .reservedCF _ _ => []

theorem exec_eq_accept_afterCmd (h : i.isReserved = false) (s : State) :
    exec i s = s.accept fun c => (c.afterCmd i, c.eventsOf i) := by
  cases i with
  | reservedAB op arg => cases h
  | reservedCF op arg => cases h
  | _ => rfl

/-- All that a command can do: in `Idle` it is accepted, in any other phase it waits. -/
theorem exec_next (h : exec i s = .next t) :
    (s.seq = .idle ∧ t = { s with cfg := s.cfg.afterCmd i, seq := Phase.ofEvents (s.cfg.eventsOf i) }) ∨
    (s.seq ≠ .idle ∧ t = s) := by
  cases hr : i.isReserved with
  | true =>
    obtain ⟨op, arg, hx⟩ := exec_reserved hr s
    rw [hx] at h
    cases h
  | false =>
    rw [exec_eq_accept_afterCmd hr] at h
    exact State.accept_next h

/-- Every step uses up one element of the inputs. -/
theorem step_inputs (h : step s = .next t) : t.inputs = s.inputs.tail := by
  obtain ⟨raw, -, rfl⟩ | ⟨i, -, hx⟩ | ⟨e, rest, -, rfl⟩ | ⟨rest, -, rfl⟩ | ⟨-, rfl⟩ := step_next h
  case inr.inl => exact (exec_next_frame hx).1
  all_goals rfl

/-- Without reset, the configuration changes only when a command is accepted, and then by that command. -/
theorem step_cfg (hr : s.pins.rst = false) (h : step s = .next t) :
    t.cfg = s.cfg ∨
    ((s.hasBeenReset = true ∧ s.seq = .idle ∧ s.pins.cmdValid = true) ∧
      t.cfg = s.cfg.afterCmd (decode s.pins.cmdWord)) := by
  obtain ⟨raw, hm, -⟩ | ⟨i, hm, hx⟩ | ⟨e, rest, -, rfl⟩ | ⟨rest, -, rfl⟩ | ⟨-, rfl⟩ := step_next h
  case inl =>
    obtain ⟨hr', -, -⟩ := State.nextMove_reset hm
    simp [hr] at hr'
  case inr.inl =>
    obtain ⟨-, hb, hv, rfl, -⟩ := State.nextMove_run hm
    obtain ⟨hi, rfl⟩ | ⟨-, rfl⟩ := exec_next hx
    · exact .inr ⟨⟨hb, hi, hv⟩, rfl⟩
    · exact .inl rfl
  all_goals exact .inl rfl

/-- Past the end of the inputs no reset is asserted either. -/
theorem State.pins_rst_of_inputs (h : ∀ p ∈ s.inputs, p.rst = false) : s.pins.rst = false := by
  unfold State.pins
  split
  · rfl
  · next p ps hp => exact h p (by simp [hp])

/-- A property of the configuration that every command keeps holds along every run without reset. -/
theorem run_keeps_cfg (P : Cfg → Prop) (hP : ∀ c i, P c → P (c.afterCmd i)) {k : Nat}
    (hin : ∀ p ∈ s.inputs, p.rst = false) (hrun : Host.Core.run core k s = .next t) (hs : P s.cfg) : P t.cfg := by
  induction k generalizing s with
  | zero => cases hrun; exact hs
  | succ k ih =>
    obtain ⟨u, hu, hrun⟩ := run_succ_next hrun
    refine ih (fun p hp => hin p (List.mem_of_mem_tail (step_inputs hu ▸ hp))) hrun ?_
    obtain hc | ⟨-, hc⟩ := step_cfg (State.pins_rst_of_inputs hin) hu <;> rw [hc]
    · exact hs
    · exact hP _ _ hs

end Sys2Proof.Machine
end

section
/-! SUPPORT. What each command does to each configuration register (10_state.md R20 to R31). -/

namespace Sys2Proof.Machine

variable {c : Cfg} (i : Instr)

theorem Cfg.afterCmd_cmd (c : Cfg) :
    (c.afterCmd i).cmd = c.cmd ∨ (∃ a, i = .setBrightness a) ∨ i = .enableMux ∨ i = .disableMux := by
  cases i <;> simp [Cfg.afterCmd]

theorem Cfg.afterCmd_muxEn (c : Cfg) : (c.afterCmd i).muxEn = c.muxEn ∨ i = .enableMux ∨ i = .disableMux := by
  cases i <;> simp [Cfg.afterCmd]

theorem Cfg.afterCmd_rev (c : Cfg) : (c.afterCmd i).rev = c.rev ∨ ∃ a, i = .setDigitOrder a := by
  cases i <;> simp [Cfg.afterCmd]

theorem Cfg.afterCmd_dp (c : Cfg) : (c.afterCmd i).dp = c.dp ∨ ∃ a, i = .setDecimalPlaces a := by
  cases i <;> simp [Cfg.afterCmd]

@[simp] theorem Cfg.afterCmd_addr (c : Cfg) : (c.afterCmd i).addr = c.addr := by
  cases i <;> rfl

theorem Cfg.Inv.afterCmd (h : c.Inv) : (c.afterCmd i).Inv := by
  cases i with
  | setBrightness arg => exact h.setBrightness _
  | enableMux => exact h.setMux
  | disableMux => exact h.clearMux
  | setDigitOrder arg => exact h.withRev _
  | setDecimalPlaces arg => exact h.withDp _
  | _ => exact h

/-! ## The brightness field -/

theorem brtField_or (a b : Byte) : brtField (a ||| b) = brtField a ||| brtField b := BitVec.extractLsb'_or

theorem brtField_and (a b : Byte) : brtField (a &&& b) = brtField a &&& brtField b := BitVec.extractLsb'_and

/-- SET_BRIGHTNESS replaces the whole field (42_config_commands.md R110). -/
@[simp] theorem brtField_setBrightnessBits (cmd bits : Byte) :
    brtField (setBrightnessBits cmd bits) = brtField bits := by
  have hmask : brtField 0x8F = 0#3 := by decide
  rw [setBrightnessBits, brtField_or, brtField_and, hmask, BitVec.and_zero, BitVec.zero_or]

@[simp] theorem brtField_setMuxBits (cmd : Byte) : brtField (setMuxBits cmd) = brtField cmd := by
  have hmask : brtField 0x07 = 0#3 := by decide
  rw [setMuxBits, brtField_or, hmask, BitVec.or_zero]

@[simp] theorem brtField_clearMuxBits (cmd : Byte) : brtField (clearMuxBits cmd) = brtField cmd := by
  have hmask : brtField 0xF8 = BitVec.allOnes 3 := by decide
  rw [clearMuxBits, brtField_and, hmask, BitVec.and_allOnes]

/-- The level is a function of the field alone. -/
theorem Cfg.brightnessLevel_congr {c d : Cfg} (h : brtField c.cmd = brtField d.cmd) :
    c.brightnessLevel = d.brightnessLevel := by
  simp only [Cfg.brightnessLevel, h]

/-- A level outside the three reads back as LOW (42_config_commands.md R110). -/
theorem Cfg.brightnessLevel_setBrightness (c : Cfg) (arg : Arg) :
    (c.afterCmd (.setBrightness arg)).brightnessLevel = some ((levelOperand arg).getD .low) := by
  simp only [Cfg.afterCmd, Cfg.brightnessLevel, Cfg.withCmd_cmd, brtField_setBrightnessBits]
  cases levelOperand arg with
  | none => rfl
  | some l => cases l <;> rfl

theorem Cfg.brightnessLevel_afterCmd (c : Cfg) (h : ∀ arg, i ≠ .setBrightness arg) :
    (c.afterCmd i).brightnessLevel = c.brightnessLevel := by
  apply Cfg.brightnessLevel_congr
  cases i with
  | setBrightness arg => exact absurd rfl (h arg)
  | enableMux => exact brtField_setMuxBits c.cmd
  | disableMux => exact brtField_clearMuxBits c.cmd
  | _ => rfl

/-- R31 (c): at most one of `CMD[6:4]` is set. -/
theorem Cfg.Inv.brightness_unique (h : c.Inv) : ∀ j k, 4 ≤ j → j ≤ 6 → 4 ≤ k → k ≤ 6 →
    c.cmd.getLsbD j = true → c.cmd.getLsbD k = true → j = k := by
  intro j k hj hj' hk hk' sj sk
  obtain ⟨-, -, -, -, hbrt, -⟩ := h
  obtain ⟨j, rfl⟩ := Nat.exists_eq_add_of_le hj
  obtain ⟨k, rfl⟩ := Nat.exists_eq_add_of_le hk
  have bit : ∀ n, n < 3 → c.cmd.getLsbD (4 + n) = (brtField c.cmd).getLsbD n := by
    intro n hn
    simp [brtField, hn]
  rw [bit j (by omega)] at sj
  rw [bit k (by omega)] at sk
  have oneHot : ∀ j k : Fin 3, ∀ b ∈ [0b000#3, 0b001#3, 0b010#3, 0b100#3],
      b.getLsbD j = true → b.getLsbD k = true → j = k := by decide
  have := oneHot ⟨j, by omega⟩ ⟨k, by omega⟩ _ (by simpa using hbrt) sj sk
  simpa using this

end Sys2Proof.Machine
end

section
/-! SUPPORT. The transport contract and the phase along the moves of a step (20_memory.md R44, R46). -/

namespace Sys2Proof.Machine

variable {s t : State} {i : Instr} {e : Ev} {rest evs : List Ev}

/-- The events of a command are whole frames, of the address and the digit count it leaves. -/
theorem Cfg.after_eventsOf (c : Cfg) (i : Instr) :
    FramePos.after (· == (c.afterCmd i).addr) (· == (c.afterCmd i).adc) .boundary (c.eventsOf i) = some .boundary := by
  rw [Cfg.afterCmd_addr]
  cases i with
  | setBrightness arg => exact FramePos.after_frame _ c _ _ (.inl ⟨rfl, rfl⟩)
  | clear => exact FramePos.after_frame _ c _ _ (.inr ⟨rfl, by simp [Cfg.afterCmd]⟩)
  | sendDec arg => exact FramePos.after_frame _ c _ _ (.inr ⟨rfl, by simp [Cfg.afterCmd]⟩)
  | sendDecReal arg => exact FramePos.after_frame _ c _ _ (.inr ⟨rfl, by simp [Cfg.afterCmd]⟩)
  | sendHex arg => exact FramePos.after_frame _ c _ _ (.inr ⟨rfl, by simp [Cfg.afterCmd]⟩)
  | segmentTest =>
    have frame (okLength : Nat → Bool) (b : Byte) :=
      FramePos.after_frame okLength c selCommand [b] (.inl ⟨rfl, rfl⟩)
    simp [Cfg.eventsOf, FramePos.after_append, frame, FramePos.after, FramePos.next]
  | _ => rfl

/-- The events of a command are none, or end with the `End` of a frame. -/
theorem Cfg.getLast_eventsOf (c : Cfg) (i : Instr) :
    c.eventsOf i = [] ∨ (c.eventsOf i).getLast? = some .endFrame := by
  cases i with
  | setBrightness arg => exact .inr (c.getLast_frame _ _)
  | clear => exact .inr (c.getLast_frame _ _)
  | sendDec arg => exact .inr (c.getLast_frame _ _)
  | sendDecReal arg => exact .inr (c.getLast_frame _ _)
  | sendHex arg => exact .inr (c.getLast_frame _ _)
  | segmentTest => exact .inr (by rw [Cfg.eventsOf, List.getLast?_append, Cfg.getLast_frame]; rfl)
  | _ => exact .inl rfl

/-- The contract, with the position reached so far named. -/
theorem State.transportOk_iff : s.TransportOk ↔
    ∃ p, s.sentPos = some p ∧ FramePos.after (· == s.cfg.addr) (· == s.cfg.adc) p s.seq.pend = some .boundary :=
  Option.bind_eq_some_iff

/-- With nothing pending, what was emitted is whole frames. -/
theorem State.TransportOk.sentPos (h : s.TransportOk) (hp : s.seq.pend = []) : s.sentPos = some .boundary := by
  obtain ⟨p, hs, ha⟩ := State.transportOk_iff.mp h
  rw [hp] at ha
  rw [hs, ← ha]
  rfl

/-- Emitting the head of the pending events moves it from what is pending to what was sent. -/
theorem State.TransportOk.emit (h : s.TransportOk) (hs : s.seq = .busy (e :: rest)) : (s.emit e rest).TransportOk := by
  obtain ⟨p, hp, ha⟩ := State.transportOk_iff.mp h
  rw [hs] at ha
  obtain ⟨q, hq, ha⟩ := Option.bind_eq_some_iff.mp ha
  refine State.transportOk_iff.mpr ⟨q, ?_, by simpa using ha⟩
  calc (s.emit e rest).sentPos
      = s.sentPos.bind fun p => FramePos.after (fun _ => true) (fun n => n == 2 || n == 4) p [e] :=
        FramePos.after_append _ _ _ _ _
    _ = some q := by simp [hp, FramePos.after, FramePos.next_relax s.cfg hq]

/-- The end of a wait changes neither what was sent nor what is pending. -/
theorem State.TransportOk.resume (h : s.TransportOk) (hp : s.seq.pend = rest) : (s.resume rest).TransportOk := by
  subst hp
  simpa [State.TransportOk, State.sentPos] using h

/-- The phase from which the events `evs` are still to come. -/
theorem State.phaseOk_ofEvents (hs : s.seq = Phase.ofEvents evs) (h : evs = [] ∨ evs.getLast? = some .endFrame) :
    s.PhaseOk := by
  refine ⟨by simpa [hs] using h, ?_⟩
  cases evs <;> simp [hs]

/-- After an event that is no `End` a frame's end is still to come. -/
theorem State.PhaseOk.emit (h : s.PhaseOk) (hs : s.seq = .busy (e :: rest)) : (s.emit e rest).PhaseOk := by
  obtain ⟨hlast, -⟩ := h
  have hlast : (e :: rest).getLast? = some .endFrame := by simpa [hs] using hlast
  have hne : e ≠ .endFrame → rest ≠ [] := by
    rintro he rfl
    exact he (by simpa using hlast)
  refine ⟨?_, ?_⟩
  · cases rest with
    | nil => exact .inl (by simp)
    | cons a as => exact .inr (by simpa using hlast)
  · cases e with
    | endFrame => simp [Phase.afterEmit]
    | hold => simpa [Phase.afterEmit] using hne
    | beginFrame a => simpa [Phase.afterEmit] using hne
    | writeByte b => simpa [Phase.afterEmit] using hne

/-! ## The invariant along each move -/

theorem State.inv_iff (hb : s.hasBeenReset = true) : s.Inv ↔ s.cfg.Inv ∧ s.TransportOk ∧ s.PhaseOk := by
  simp [State.Inv, hb]

/-- Where a reset may come, no frame is open. -/
theorem State.Inv.sentPos (h : s.Inv) (hi : s.hasBeenReset = true → s.seq = .idle) : s.sentPos = some .boundary := by
  obtain ⟨hbefore, hafter⟩ := h
  cases hb : s.hasBeenReset with
  | false => simp [State.sentPos, hbefore hb, FramePos.after]
  | true =>
    obtain ⟨-, htransport, -⟩ := hafter hb
    exact htransport.sentPos (by rw [hi hb]; rfl)

theorem State.Inv.resetBy (h : s.sentPos = some .boundary) (raw : BitVec 8) : (s.resetBy raw).Inv :=
  (State.inv_iff rfl).mpr
    ⟨Cfg.Inv.reset _, State.transportOk_iff.mpr ⟨_, h, rfl⟩, State.phaseOk_ofEvents rfl (.inl rfl)⟩

theorem exec_keeps_inv (h : s.Inv) (hb : s.hasBeenReset = true) (hx : exec i s = .next t) : t.Inv := by
  obtain ⟨hi, rfl⟩ | ⟨-, rfl⟩ := exec_next hx
  · obtain ⟨hcfg, -, -⟩ := (State.inv_iff hb).mp h
    refine (State.inv_iff (by exact hb)).mpr ⟨hcfg.afterCmd i, ?_, State.phaseOk_ofEvents rfl (s.cfg.getLast_eventsOf i)⟩
    exact State.transportOk_iff.mpr ⟨_, h.sentPos fun _ => hi, by simpa using s.cfg.after_eventsOf i⟩
  · exact h

theorem State.Inv.emit (h : s.Inv) (hb : s.hasBeenReset = true) (hs : s.seq = .busy (e :: rest)) :
    (s.emit e rest).Inv := by
  obtain ⟨hcfg, htransport, hphase⟩ := (State.inv_iff hb).mp h
  exact (State.inv_iff (by exact hb)).mpr ⟨hcfg, htransport.emit hs, hphase.emit hs⟩

theorem State.Inv.resume (h : s.Inv) (hb : s.hasBeenReset = true) (hp : s.seq.pend = rest) : (s.resume rest).Inv := by
  obtain ⟨hcfg, htransport, hlast, -⟩ := (State.inv_iff hb).mp h
  exact (State.inv_iff (by exact hb)).mpr ⟨hcfg, htransport.resume hp, State.phaseOk_ofEvents rfl (hp ▸ hlast)⟩

/-- Every step keeps the invariant: one case for each move. -/
theorem step_keeps_inv (h : s.Inv) (hst : step s = .next t) : t.Inv := by
  have ht : s.tick.Inv := h
  obtain ⟨raw, hm, rfl⟩ | ⟨i, hm, hx⟩ | ⟨e, rest, hm, rfl⟩ | ⟨rest, hm, rfl⟩ | ⟨-, rfl⟩ := step_next hst
  case inl =>
    obtain ⟨-, -, hi⟩ := State.nextMove_reset hm
    exact State.Inv.resetBy (ht.sentPos hi) raw
  case inr.inl =>
    obtain ⟨-, hb, -, -, -⟩ := State.nextMove_run hm
    exact exec_keeps_inv ht hb hx
  case inr.inr.inl =>
    obtain ⟨-, hb, hs, -⟩ := State.nextMove_emit hm
    exact ht.emit hb hs
  case inr.inr.inr.inl =>
    obtain ⟨-, hb, ⟨hs, -⟩ | ⟨hs, -⟩⟩ := State.nextMove_resume hm <;> exact ht.resume hb (by simp [hs])
  case inr.inr.inr.inr => exact ht

/-! ## Before the first reset -/

theorem State.nextMove_beforeReset (hb : s.hasBeenReset = false) :
    s.nextMove =
      if s.pins.rst then .reset s.pins.rawAddr else if s.pins.cmdValid then .refuse .commandBeforeReset else .wait := by
  simp [State.nextMove, hb]

end Sys2Proof.Machine
end

section
/-! The obligations of 10_state.md. -/

namespace Sys2Proof.Machine

/-- Settles O56: the invariant is inductive, move by move (`step_keeps_inv`). -/
theorem stepKeepsInvariant : Obligations.StepKeepsInvariant := fun _ _ => step_keeps_inv

/-- Settles O53: without reset the configuration changes only by an accepted command (`step_cfg`), and each command
writes only its own registers. -/
theorem configurationWriters : Obligations.ConfigurationWriters := by
  intro s t hr hst
  obtain hc | ⟨hacc, hc⟩ := step_cfg hr hst <;> rw [hc]
  · exact ⟨.inl rfl, .inl rfl, .inl rfl, .inl rfl, rfl⟩
  · exact ⟨(s.cfg.afterCmd_cmd _).imp_right (⟨hacc, ·⟩), (s.cfg.afterCmd_muxEn _).imp_right (⟨hacc, ·⟩),
      (s.cfg.afterCmd_rev _).imp_right (⟨hacc, ·⟩), (s.cfg.afterCmd_dp _).imp_right (⟨hacc, ·⟩), s.cfg.afterCmd_addr _⟩

/-- Settles O57: R31's invariant and the address hold at reset, every command keeps them, so every run does. -/
theorem runsKeepConfigurationInvariant : Obligations.RunsKeepConfigurationInvariant := by
  intro k s t a _ _ hcfg hin hrun
  have hkeep : t.cfg.Inv ∧ t.cfg.addr = a :=
    run_keeps_cfg (fun c => c.Inv ∧ c.addr = a) (fun _ i ⟨hinv, haddr⟩ => ⟨hinv.afterCmd i, by simpa using haddr⟩)
      hin hrun (hcfg ▸ ⟨Cfg.Inv.reset a, rfl⟩)
  obtain ⟨hinv, haddr⟩ := hkeep
  have hunique := hinv.brightness_unique
  obtain ⟨hset, hclear, h7, h3, -, hdp⟩ := hinv
  exact ⟨hset, hclear, h7, h3, hunique, hdp, haddr⟩

/-- Settles O23, from the two values of `MUX_EN`. -/
theorem activeDigitCount : Obligations.ActiveDigitCount := by
  refine ⟨fun c => ?_, rfl⟩
  obtain ⟨hm, ha⟩ | ⟨hm, ha⟩ := c.adc_cases <;> simp [hm, ha]

/-- Settles O24: the level is a function of `CMD[6:4]`, which only SET_BRIGHTNESS replaces. -/
theorem brightnessLevelIsAView : Obligations.BrightnessLevelIsAView := by
  refine ⟨fun c => ⟨?_, ?_, ?_, ?_⟩, rfl, fun arg s t hi hx => ?_, fun i s t hne hx => ?_⟩
  iterate 4 exact fun h => by simp [Cfg.brightnessLevel, h]
  · obtain ⟨-, rfl⟩ | ⟨hn, -⟩ := exec_next hx
    · exact s.cfg.brightnessLevel_setBrightness arg
    · exact absurd hi hn
  · obtain ⟨-, rfl⟩ | ⟨-, rfl⟩ := exec_next hx
    · exact s.cfg.brightnessLevel_afterCmd i hne
    · rfl

/-- Settles O49, from the one move each input has before the first reset. -/
theorem nothingRunsBeforeTheFirstReset : Obligations.NothingRunsBeforeTheFirstReset := by
  intro s hb
  have hm := State.nextMove_beforeReset hb
  exact ⟨fun hr hv => by simp [step, hm, hr, hv], fun hr hv => by simp [step, hm, hr, hv],
    fun hr => by simp [step, hm, hr]⟩

end Sys2Proof.Machine
end

section
/-! SUPPORT. The command port and the sequencer: which step each phase takes, what such a step keeps, and runs under an
environment that makes progress (20_memory.md R43 to R47). -/

namespace Sys2Proof.Machine

variable {s t u : State} {i : Instr} {e : Ev} {rest evs : List Ev}

/-! ## Phases -/

theorem Phase.ofEvents_eq_idle : Phase.ofEvents evs = .idle ↔ evs = [] := by
  cases evs <;> simp

theorem Phase.afterEmit_ne_idle (e : Ev) (rest : List Ev) : Phase.afterEmit e rest ≠ .idle := by
  cases e <;> nofun

/-- The phase after an event, as R46 writes it. -/
theorem Phase.afterEmit_eq (e : Ev) (rest : List Ev) :
    Phase.afterEmit e rest =
      if e = .endFrame then .awaitDone rest else if e = .hold then .awaitTimer rest else .busy rest := by
  cases e <;> rfl

/-! ## The step of each phase -/

theorem State.cmdReady_iff : s.cmdReady = true ↔ s.seq = .idle ∧ s.pins.rst = false := by
  simp [State.cmdReady]

/-- A ready block runs the command it is presented. -/
theorem step_ready (hb : s.hasBeenReset = true) (hready : s.cmdReady = true) (hv : s.pins.cmdValid = true) :
    step s = exec (decode s.pins.cmdWord) s.tick := by
  obtain ⟨hi, hr⟩ := State.cmdReady_iff.mp hready
  simp only [step, State.nextMove_idle_run hr hb hi hv]

/-- Outside `Idle` a command that is no reserved word does not keep the phase from moving. -/
theorem State.nextMove_busy (hb : s.hasBeenReset = true) (hr : s.pins.rst = false) (hi : s.seq ≠ .idle)
    (hc : s.pins.cmdValid = true → (decode s.pins.cmdWord).isReserved = false) : s.nextMove = s.phaseMove :=
  State.nextMove_phase hr hb fun hv => ⟨hi, hc hv⟩

theorem step_busy (hb : s.hasBeenReset = true) (hr : s.pins.rst = false)
    (hc : s.pins.cmdValid = true → (decode s.pins.cmdWord).isReserved = false) (hs : s.seq = .busy (e :: rest)) :
    step s = if s.pins.accepts e then .next (s.tick.emit e rest) else .next s.tick := by
  cases ha : s.pins.accepts e <;> simp [step, State.nextMove_busy hb hr (by simp [hs]) hc, State.phaseMove, hs, ha]

theorem step_awaitDone (hb : s.hasBeenReset = true) (hr : s.pins.rst = false)
    (hc : s.pins.cmdValid = true → (decode s.pins.cmdWord).isReserved = false) (hs : s.seq = .awaitDone rest) :
    step s = if s.pins.frameDone then .next (s.tick.resume rest) else .next s.tick := by
  cases ha : s.pins.frameDone <;> simp [step, State.nextMove_busy hb hr (by simp [hs]) hc, State.phaseMove, hs, ha]

theorem step_awaitTimer (hb : s.hasBeenReset = true) (hr : s.pins.rst = false)
    (hc : s.pins.cmdValid = true → (decode s.pins.cmdWord).isReserved = false) (hs : s.seq = .awaitTimer rest) :
    step s = if s.pins.holdExpired then .next (s.tick.resume rest) else .next s.tick := by
  cases ha : s.pins.holdExpired <;> simp [step, State.nextMove_busy hb hr (by simp [hs]) hc, State.phaseMove, hs, ha]

/-- The phase's move reads three inputs: the acceptance of the head event, `frame_done` and `hold_expired`. -/
theorem State.phaseMove_congr (hs : s.seq = t.seq) (ha : ∀ e, s.pins.accepts e = t.pins.accepts e)
    (hd : s.pins.frameDone = t.pins.frameDone) (hx : s.pins.holdExpired = t.pins.holdExpired) :
    s.phaseMove = t.phaseMove := by
  simp only [State.phaseMove, hs, ha, hd, hx]

/-- A step is its move, made with the step's inputs over. -/
theorem step_congr (hm : s.nextMove = t.nextMove) (ht : s.tick = t.tick) : step s = step t := by
  simp only [step, hm, ht]

/-- Outside `Idle` a command that is no reserved word waits: withdrawing it changes nothing (R43). -/
theorem step_withdraw {p : Pins} {ps : List Pins} (hb : s.hasBeenReset = true) (hin : s.inputs = p :: ps)
    (hr : p.rst = false) (hi : s.seq ≠ .idle) (hres : (decode p.cmdWord).isReserved = false) :
    step s = step { s with inputs := { p with cmdValid := false } :: ps } := by
  have hp : s.pins = p := by simp only [State.pins, hin]
  refine step_congr ?_ (by simp [State.tick, hin])
  calc s.nextMove
      = s.phaseMove := State.nextMove_busy hb (hp ▸ hr) hi fun _ => hp ▸ hres
    _ = State.phaseMove { s with inputs := { p with cmdValid := false } :: ps } :=
        State.phaseMove_congr rfl (fun e => by rw [hp]; cases e <;> rfl) (by rw [hp]; rfl) (by rw [hp]; rfl)
    _ = State.nextMove { s with inputs := { p with cmdValid := false } :: ps } :=
        (State.nextMove_busy (s := { s with inputs := { p with cmdValid := false } :: ps }) hb hr hi nofun).symm

/-! ## What a step keeps -/

/-- A step in `Idle` emits nothing. -/
theorem step_idle_sent (hi : s.seq = .idle) (h : step s = .next t) : t.sent = s.sent := by
  obtain ⟨raw, -, rfl⟩ | ⟨i, -, hx⟩ | ⟨e, rest, hm, -⟩ | ⟨rest, -, rfl⟩ | ⟨-, rfl⟩ := step_next h
  case inr.inl =>
    obtain ⟨-, hsent, -⟩ := exec_next_frame hx
    exact hsent
  case inr.inr.inl =>
    obtain ⟨-, -, hs, -⟩ := State.nextMove_emit hm
    simp [hi] at hs
  all_goals rfl

/-- All that a step can do to a block that has been reset and is outside `Idle`: emit the head event, end a wait, or
wait. -/
theorem step_busy_next (hb : s.hasBeenReset = true) (hi : s.seq ≠ .idle) (h : step s = .next t) :
    (∃ e rest, s.seq = .busy (e :: rest) ∧ t = s.tick.emit e rest) ∨
    (∃ rest, ((s.seq = .awaitDone rest ∧ s.pins.frameDone = true) ∨
        (s.seq = .awaitTimer rest ∧ s.pins.holdExpired = true)) ∧ t = s.tick.resume rest) ∨
    t = s.tick := by
  obtain ⟨raw, hm, -⟩ | ⟨i, -, hx⟩ | ⟨e, rest, hm, rfl⟩ | ⟨rest, hm, rfl⟩ | ⟨-, rfl⟩ := step_next h
  · obtain ⟨-, -, hidle⟩ := State.nextMove_reset hm
    exact absurd (hidle hb) hi
  · obtain ⟨hidle, -⟩ | ⟨-, rfl⟩ := exec_next hx
    · exact absurd hidle hi
    · exact .inr (.inr rfl)
  · obtain ⟨-, -, hs, -⟩ := State.nextMove_emit hm
    exact .inl ⟨e, rest, hs, rfl⟩
  · obtain ⟨-, -, hs⟩ := State.nextMove_resume hm
    exact .inr (.inl ⟨rest, hs, rfl⟩)
  · exact .inr (.inr rfl)

/-- Outside `Idle` what is emitted followed by what is pending stays the same, and at most one event leaves. -/
theorem step_busy_events (hb : s.hasBeenReset = true) (hi : s.seq ≠ .idle) (h : step s = .next t) :
    t.sent ++ t.seq.pend = s.sent ++ s.seq.pend ∧ (t.sent = s.sent ∨ ∃ e, t.sent = s.sent ++ [e]) := by
  obtain ⟨e, rest, hs, rfl⟩ | ⟨rest, ⟨hs, -⟩ | ⟨hs, -⟩, rfl⟩ | rfl := step_busy_next hb hi h
  · exact ⟨by simp [hs], .inr ⟨e, rfl⟩⟩
  · exact ⟨by simp [hs], .inl rfl⟩
  · exact ⟨by simp [hs], .inl rfl⟩
  · exact ⟨rfl, .inl rfl⟩

/-- Outside `Idle` no step changes the configuration or forgets the reset. -/
theorem step_busy_frame (hb : s.hasBeenReset = true) (hi : s.seq ≠ .idle) (h : step s = .next t) :
    t.cfg = s.cfg ∧ t.hasBeenReset = true := by
  obtain ⟨e, rest, -, rfl⟩ | ⟨rest, -, rfl⟩ | rfl := step_busy_next hb hi h <;> exact ⟨rfl, hb⟩

/-! ## An environment that makes progress -/

@[simp] theorem Pins.cooperative_accepts (e : Ev) : Pins.cooperative.accepts e = true := by
  cases e <;> rfl

@[simp] theorem Phase.drainSteps_ofEvents (evs : List Ev) :
    (Phase.ofEvents evs).drainSteps = Machine.drainSteps evs := by
  cases evs <;> simp [Phase.drainSteps, Machine.drainSteps]

/-- Emitting an event takes one of the counted steps; the wait after an `End` or a `Hold` takes its second. -/
theorem Phase.drainSteps_afterEmit (e : Ev) (rest : List Ev) :
    Machine.drainSteps (e :: rest) = (Phase.afterEmit e rest).drainSteps + 1 := by
  cases e <;> simp only [Machine.drainSteps, Phase.afterEmit, Phase.drainSteps] <;> omega

/-- Outside `Idle` a phase of the invariant's shape has an event to emit or a wait to end. -/
theorem State.PhaseOk.busy_cases (h : s.PhaseOk) (hi : s.seq ≠ .idle) :
    (∃ e rest, s.seq = .busy (e :: rest)) ∨ (∃ rest, s.seq = .awaitDone rest) ∨ ∃ rest, s.seq = .awaitTimer rest := by
  obtain ⟨-, hphase⟩ := h
  cases hs : s.seq with
  | idle => exact absurd hs hi
  | busy pend =>
    cases pend with
    | nil => simp [hs] at hphase
    | cons e rest => exact .inl ⟨e, rest, rfl⟩
  | awaitDone rest => exact .inr (.inl ⟨rest, rfl⟩)
  | awaitTimer rest => exact .inr (.inr ⟨rest, rfl⟩)

/-- Outside `Idle` one step is counted at least, and with progress a step takes one off the count. -/
theorem State.PhaseOk.cooperative_step (h : s.PhaseOk) (hb : s.hasBeenReset = true) (hi : s.seq ≠ .idle) :
    ∃ n, s.seq.drainSteps = n + 1 ∧
      (s.pins = Pins.cooperative → ∃ t, step s = .next t ∧ t.seq.drainSteps = n) := by
  obtain ⟨e, rest, hs⟩ | ⟨rest, hs⟩ | ⟨rest, hs⟩ := h.busy_cases hi
  · refine ⟨(Phase.afterEmit e rest).drainSteps, ?_, fun hp => ⟨s.tick.emit e rest, ?_, rfl⟩⟩
    · rw [hs]; exact Phase.drainSteps_afterEmit e rest
    · rw [step_busy hb (by rw [hp]; rfl) (by rw [hp]; nofun) hs, hp, if_pos (Pins.cooperative_accepts e)]
  · refine ⟨drainSteps rest, ?_, fun hp => ⟨s.tick.resume rest, ?_, by simp⟩⟩
    · rw [hs]; exact Nat.add_comm ..
    · rw [step_awaitDone hb (by rw [hp]; rfl) (by rw [hp]; nofun) hs, hp]
      exact if_pos rfl
  · refine ⟨drainSteps rest, ?_, fun hp => ⟨s.tick.resume rest, ?_, by simp⟩⟩
    · rw [hs]; exact Nat.add_comm ..
    · rw [step_awaitTimer hb (by rw [hp]; rfl) (by rw [hp]; nofun) hs, hp]
      exact if_pos rfl

/-- With progress the block empties its pending events and is `Idle`, by induction on the counted steps: each step keeps
the invariant, the configuration and the events in order. -/
theorem run_cooperative {n : Nat} {ps : List Pins} (h : s.Inv) (hb : s.hasBeenReset = true)
    (hn : s.seq.drainSteps = n) (hin : s.inputs = List.replicate n Pins.cooperative ++ ps) :
    Host.Core.run core n s = .next { s with seq := .idle, sent := s.sent ++ s.seq.pend, inputs := ps } := by
  induction n generalizing s with
  | zero =>
    have hi : s.seq = .idle := by
      by_contra hi
      obtain ⟨-, -, hphase⟩ := (State.inv_iff hb).mp h
      obtain ⟨m, hm, -⟩ := hphase.cooperative_step hb hi
      omega
    obtain rfl : s.inputs = ps := by simpa using hin
    rw [run_zero, hi, Phase.pend_idle, List.append_nil, ← hi]
  | succ n ih =>
    have hi : s.seq ≠ .idle := by
      intro hi
      simp [hi, Phase.drainSteps] at hn
    obtain ⟨-, -, hphase⟩ := (State.inv_iff hb).mp h
    obtain ⟨m, hm, hstep⟩ := hphase.cooperative_step hb hi
    obtain ⟨t, hst, ht⟩ := hstep (by simp [State.pins, hin, List.replicate_succ])
    obtain ⟨hcfg, hbt⟩ := step_busy_frame hb hi hst
    obtain ⟨hevents, -⟩ := step_busy_events hb hi hst
    have htin : t.inputs = List.replicate n Pins.cooperative ++ ps := by
      rw [step_inputs hst, hin, List.replicate_succ, List.cons_append, List.tail_cons]
    calc Host.Core.run core (n + 1) s
        = Host.Core.run core n t := run_succ n hst
      _ = .next { t with seq := .idle, sent := t.sent ++ t.seq.pend, inputs := ps } :=
          ih (step_keeps_inv h hst) hbt (by omega) htin
      _ = .next { s with seq := .idle, sent := s.sent ++ s.seq.pend, inputs := ps } := by
          rw [hcfg, hbt, hevents, hb]

/-- No command reads the inputs. -/
theorem exec_tick (h : exec i s = .next u) : exec i s.tick = .next u.tick := by
  cases hr : i.isReserved with
  | true =>
    obtain ⟨op, arg, hx⟩ := exec_reserved hr s
    rw [hx] at h
    cases h
  | false =>
    rw [exec_eq_accept_afterCmd hr] at h ⊢
    obtain ⟨hi, rfl⟩ | ⟨hi, rfl⟩ := State.accept_next h
    · exact State.accept_idle hi
    · exact State.accept_waits hi

/-! ## The frames of each command -/

/-- A frame has one `End`. -/
theorem Cfg.countP_endFrame_frame (c : Cfg) (rs : Byte) (bytes : List Byte) :
    (c.frame rs bytes).countP (fun e => e == .endFrame) = 1 := by
  have hwrites : (bytes.map Ev.writeByte).countP (fun e => e == .endFrame) = 0 := by simp
  simp [Cfg.frame, hwrites]

/-- Of the ten commands exactly four leave no event to emit. -/
theorem Cfg.eventsOf_eq_nil_iff (c : Cfg) (h : i.isReserved = false) :
    c.eventsOf i = [] ↔
      i = .enableMux ∨ i = .disableMux ∨ (∃ a, i = .setDigitOrder a) ∨ ∃ a, i = .setDecimalPlaces a := by
  cases i with
  | reservedAB op arg => cases h
  | reservedCF op arg => cases h
  | _ => simp [Cfg.eventsOf, Cfg.frame_ne_nil]

end Sys2Proof.Machine
end

section
/-! The obligations of 20_memory.md. -/

namespace Sys2Proof.Machine

/-- Settles O38: the events of a command keep the contract (`Cfg.after_eventsOf`), and each of its frames has one
`End`. -/
theorem framesOfEachCommand : Obligations.FramesOfEachCommand := by
  intro i s t hi hx
  obtain ⟨-, rfl⟩ | ⟨hn, -⟩ := exec_next hx
  case inr => exact absurd hi hn
  rw [Phase.pend_ofEvents]
  refine ⟨by simpa using s.cfg.after_eventsOf i, ?_⟩
  cases i with
  | setBrightness arg => exact s.cfg.countP_endFrame_frame _ _
  | clear => exact s.cfg.countP_endFrame_frame _ _
  | sendDec arg => exact s.cfg.countP_endFrame_frame _ _
  | sendDecReal arg => exact s.cfg.countP_endFrame_frame _ _
  | sendHex arg => exact s.cfg.countP_endFrame_frame _ _
  | segmentTest => simp [Cfg.eventsOf, Cfg.countP_endFrame_frame]
  | _ => rfl

/-- Settles O45: `accept` from the command's own events, `emit`, `done` and `expire` from the step of each phase. -/
theorem sequencerTransitions : Obligations.SequencerTransitions := by
  refine ⟨fun i s hi hres => ?_, fun s hb ⟨_, hc⟩ hr => ⟨fun e rest hs ha => ?_, fun rest hs hd => ?_,
    fun rest hs hx => ?_⟩⟩
  · refine ⟨s.cfg.afterCmd i, s.cfg.eventsOf i, ?_, s.cfg.getLast_eventsOf i, s.cfg.eventsOf_eq_nil_iff hres⟩
    rw [exec_eq_accept_afterCmd hres]
    exact State.accept_idle hi
  · rw [step_busy hb hr hc hs, if_pos ha, ← Phase.afterEmit_eq]
    rfl
  · rw [step_awaitDone hb hr hc hs, if_pos hd]
    rfl
  · rw [step_awaitTimer hb hr hc hs, if_pos hx]
    rfl

/-- Settles O46: `step_ready` for the transfer, `step_withdraw` for the command that waits. -/
theorem commandPortHandshake : Obligations.CommandPortHandshake := fun _ hb =>
  ⟨State.cmdReady_iff, step_ready hb, fun _ _ hin hr hi hres =>
    ⟨step_withdraw hb hin hr hi hres, fun _ hst => (step_busy_frame hb hi hst).1⟩⟩

/-- Settles O51, phase by phase. -/
theorem eventsLeaveInOrder : Obligations.EventsLeaveInOrder := fun _ _ hb _ hst =>
  ⟨fun hi => step_idle_sent hi hst, fun hi => step_busy_events hb hi hst⟩

/-- Settles O52: of the steps of a busy block only the end of a wait with nothing pending leads to `Idle`, and by the
invariant the timer's wait always has a frame pending. -/
theorem readyReturnsAfterLastFrame : Obligations.ReadyReturnsAfterLastFrame := by
  intro s t hinv hb hi hst ht
  obtain ⟨-, -, -, hphase⟩ := (State.inv_iff hb).mp hinv
  obtain ⟨e, rest, -, rfl⟩ | ⟨rest, hs, rfl⟩ | rfl := step_busy_next hb hi hst
  · exact absurd ht (Phase.afterEmit_ne_idle e rest)
  · obtain rfl : rest = [] := Phase.ofEvents_eq_idle.mp ht
    obtain ⟨hs, hd⟩ | ⟨hs, -⟩ := hs
    · exact ⟨hs, hd, by simpa [hs] using hphase, rfl⟩
    · simp [hs] at hphase
  · exact absurd ht hi

/-- Settles O58, by induction on the counted steps (`run_cooperative`). -/
theorem cooperativeEnvironmentDrains : Obligations.CooperativeEnvironmentDrains := fun _ _ hinv hb hin =>
  run_cooperative hinv hb rfl hin

/-- Settles O59: the first step accepts the command, and the block then drains. -/
theorem acceptedCommandCompletes : Obligations.AcceptedCommandCompletes := by
  intro s u p rest hinv hb hi hr hv hx hin
  have hp : s.pins = p := by simp only [State.pins, hin]
  obtain ⟨huin, husent, hub⟩ := exec_next_frame hx
  have hst : step s = .next u.tick := by
    rw [step_ready hb (State.cmdReady_iff.mpr ⟨hi, hp ▸ hr⟩) (hp ▸ hv), hp]
    exact exec_tick hx
  have hudrain : u.tick.inputs = List.replicate u.seq.drainSteps Pins.cooperative ++ rest := by
    rw [State.tick_inputs, huin, hin, List.tail_cons]
  calc Host.Core.run core (1 + u.seq.drainSteps) s
      = Host.Core.run core u.seq.drainSteps u.tick := by rw [Nat.add_comm, run_succ _ hst]
    _ = .next { u with seq := .idle, sent := u.sent ++ u.seq.pend, inputs := rest } :=
        run_cooperative (step_keeps_inv hinv hst) (hub.trans hb) rfl hudrain
    _ = .next { s with cfg := u.cfg, seq := .idle, sent := s.sent ++ u.seq.pend, inputs := rest } := by
        rw [husent, hub]

/-- Settles O43, by `step_ready`. -/
theorem stepRunsPresentedCommand : Obligations.StepRunsPresentedCommand := by
  rintro s i hb hready hv rfl
  exact step_ready hb hready hv

/-- Settles O44: the block that is presented the word is ready, and the placed inputs are over after the step. -/
theorem placedWordRunsNext : Obligations.PlacedWordRunsNext := by
  intro s nbits w i h
  obtain ⟨x, hx, rfl⟩ := Option.map_eq_some_iff.mp h
  obtain ⟨-, hx⟩ := Option.ite_none_right_eq_some.mp hx
  obtain rfl := Option.some.inj hx
  exact step_ready (s := s.withFetchWord nbits w) rfl rfl rfl

end Sys2Proof.Machine
end

section
/-! SUPPORT. The fields of a word and the opcode map of 30_encoding.md R63 as a relation that the decoder meets. -/

namespace Sys2Proof

/-- A word is its opcode above its operand (R60). -/
@[simp] theorem cmdWord_fields (w : CmdWord) : cmdWord (opField w) (argField w) = w :=
  BitVec.extractLsb'_append_extractLsb' (w := 4) (len := 32)

/-- The opcode map (R63) with the two reserved rows (R64): opcode `op` with operand `arg` reads as a command.
`reads_iff` ties it to `decode`. -/
inductive Reads : Opcode → Arg → Instr → Prop
  | setBrightness (arg : Arg) : Reads 0x0 arg (.setBrightness arg)
  | enableMux (arg : Arg) : Reads 0x1 arg .enableMux
  | disableMux (arg : Arg) : Reads 0x2 arg .disableMux
  | setDigitOrder (arg : Arg) : Reads 0x3 arg (.setDigitOrder arg)
  | setDecimalPlaces (arg : Arg) : Reads 0x4 arg (.setDecimalPlaces arg)
  | clear (arg : Arg) : Reads 0x5 arg .clear
  | sendDec (arg : Arg) : Reads 0x6 arg (.sendDec arg)
  | sendDecReal (arg : Arg) : Reads 0x7 arg (.sendDecReal arg)
  | sendHex (arg : Arg) : Reads 0x8 arg (.sendHex arg)
  | segmentTest (arg : Arg) : Reads 0x9 arg .segmentTest
  | reservedAB {op : Opcode} (arg : Arg) (h : op = 0xA ∨ op = 0xB) : Reads op arg (.reservedAB op arg)
  | reservedCF {op : Opcode} (arg : Arg) (h : 0xC ≤ op) : Reads op arg (.reservedCF op arg)

variable {op : Opcode} {arg : Arg} {i : Instr}

/-- Every opcode is assigned or lies in a reserved row (R63, R64). -/
theorem opcode_cases (op : Opcode) :
    op = 0x0 ∨ op = 0x1 ∨ op = 0x2 ∨ op = 0x3 ∨ op = 0x4 ∨ op = 0x5 ∨ op = 0x6 ∨ op = 0x7 ∨ op = 0x8 ∨ op = 0x9 ∨
    (op = 0xA ∨ op = 0xB) ∨ 0xC ≤ op := by
  revert op; decide

/-- The map is total (R66). -/
theorem exists_reads (op : Opcode) (arg : Arg) : ∃ i, Reads op arg i := by
  obtain rfl | rfl | rfl | rfl | rfl | rfl | rfl | rfl | rfl | rfl | h | h := opcode_cases op
  · exact ⟨_, .setBrightness arg⟩
  · exact ⟨_, .enableMux arg⟩
  · exact ⟨_, .disableMux arg⟩
  · exact ⟨_, .setDigitOrder arg⟩
  · exact ⟨_, .setDecimalPlaces arg⟩
  · exact ⟨_, .clear arg⟩
  · exact ⟨_, .sendDec arg⟩
  · exact ⟨_, .sendDecReal arg⟩
  · exact ⟨_, .sendHex arg⟩
  · exact ⟨_, .segmentTest arg⟩
  · exact ⟨_, .reservedAB arg h⟩
  · exact ⟨_, .reservedCF arg h⟩

/-- The decoder reads what the map says. -/
theorem Reads.decode_cmdWord (h : Reads op arg i) : decode (cmdWord op arg) = i := by
  cases h with
  | reservedAB _ h => obtain rfl | rfl := h <;> simp [decode]
  | reservedCF _ h =>
    have hrow : op = 0xC ∨ op = 0xD ∨ op = 0xE ∨ op = 0xF := by revert op; decide
    obtain rfl | rfl | rfl | rfl := hrow <;> simp [decode]
  | _ => simp [decode]

theorem reads_decode (w : CmdWord) : Reads (opField w) (argField w) (decode w) := by
  obtain ⟨i, h⟩ := exists_reads (opField w) (argField w)
  have hdec : decode w = i := by simpa using h.decode_cmdWord
  rwa [hdec]

/-- The decoder is the opcode map. -/
theorem reads_iff : Reads op arg i ↔ decode (cmdWord op arg) = i :=
  ⟨Reads.decode_cmdWord, fun h => by simpa [h] using reads_decode (cmdWord op arg)⟩

theorem reads_decode_cmdWord (op : Opcode) (arg : Arg) : Reads op arg (decode (cmdWord op arg)) :=
  reads_iff.mpr rfl

/-- A well-formed command stands in the map with its own opcode and operand. -/
theorem Instr.reads_of_wf (h : i.wf = true) : Reads i.opcode i.argBits i := by
  cases i with
  | setBrightness arg => exact .setBrightness arg
  | enableMux => exact .enableMux 0
  | disableMux => exact .disableMux 0
  | setDigitOrder arg => exact .setDigitOrder arg
  | setDecimalPlaces arg => exact .setDecimalPlaces arg
  | clear => exact .clear 0
  | sendDec arg => exact .sendDec arg
  | sendDecReal arg => exact .sendDecReal arg
  | sendHex arg => exact .sendHex arg
  | segmentTest => exact .segmentTest 0
  | reservedAB op arg => exact .reservedAB arg (by simpa [Instr.wf, Instr.opcode] using h)
  | reservedCF op arg => exact .reservedCF arg (by simpa [Instr.wf, Instr.opcode] using h)

theorem Reads.wf (h : Reads op arg i) : i.wf = true := by
  cases h with
  | reservedAB _ h => simpa [Instr.wf] using h
  | reservedCF _ h => simpa [Instr.wf] using h
  | _ => rfl

theorem Reads.opcode (h : Reads op arg i) : i.opcode = op := by
  cases h <;> rfl

/-- Format N keeps nothing of the operand, every other row all of it (R61). -/
theorem Reads.argBits (h : Reads op arg i) :
    i.argBits = if op = 0x1 ∨ op = 0x2 ∨ op = 0x5 ∨ op = 0x9 then 0 else arg := by
  cases h with
  | reservedAB _ h => obtain rfl | rfl := h <;> rfl
  | reservedCF _ h =>
    have hA : ¬ (op = 0x1 ∨ op = 0x2 ∨ op = 0x5 ∨ op = 0x9) := by revert op; decide
    exact (if_neg hA).symm
  | _ => rfl

/-- The reserved commands are those of the opcodes from 0xA on (R64). -/
theorem Reads.isReserved_iff (h : Reads op arg i) : i.isReserved = true ↔ 0xA ≤ op := by
  cases h with
  | reservedAB _ h => obtain rfl | rfl := h <;> simp [Instr.isReserved]
  | reservedCF _ h => exact iff_of_true rfl (BitVec.le_trans (by decide) h)
  | _ => simp [Instr.isReserved]

/-- The command is selected by the opcode alone (R65). -/
theorem mnemonic_decode_cmdWord (op : Opcode) (a b : Arg) :
    (decode (cmdWord op a)).mnemonic = (decode (cmdWord op b)).mnemonic := by
  simp only [decode, opField_cmdWord]
  split <;> rfl

end Sys2Proof
end

section
/-! SUPPORT. The masked patterns of spec/opcode_table.json read the opcode alone (30_encoding.md R65). -/

namespace Sys2Proof

theorem opField_and (v w : CmdWord) : opField (v &&& w) = opField v &&& opField w := BitVec.extractLsb'_and

theorem argField_and (v w : CmdWord) : argField (v &&& w) = argField v &&& argField w := BitVec.extractLsb'_and

/-- Two words are equal when their fields are. -/
theorem cmdWord_ext {v w : CmdWord} (hop : opField v = opField w) (harg : argField v = argField w) : v = w := by
  rw [← cmdWord_fields v, ← cmdWord_fields w, hop, harg]

/-- No row of the table masks or fixes a bit of the operand. -/
theorem argField_of_mem_opcodeTable : ∀ r ∈ opcodeTable, argField r.mask = 0 ∧ argField r.pattern = 0 := by decide

/-- So a row covers a word by its opcode. -/
theorem covers_of_mem_opcodeTable {r : OpcodeRow} (h : r ∈ opcodeTable) (w : CmdWord) :
    r.covers w = (opField w &&& opField r.mask == opField r.pattern) := by
  obtain ⟨hmask, hpattern⟩ := argField_of_mem_opcodeTable r h
  rw [OpcodeRow.covers, Bool.eq_iff_iff, beq_iff_eq, beq_iff_eq, ← opField_and]
  refine ⟨congrArg opField, fun hop => cmdWord_ext hop ?_⟩
  rw [argField_and, hmask, hpattern]
  exact BitVec.and_zero

/-- The rows by opcode: for each of the sixteen, one row, of the command the decoder reads. -/
theorem opcodeTable_filter_opcode : ∀ op : Opcode,
    (opcodeTable.filter fun r => op &&& opField r.mask == opField r.pattern).map (·.mnemonic) =
      [(decode (cmdWord op 0)).mnemonic] := by
  decide +kernel

end Sys2Proof
end

section
/-! SUPPORT. The readings of the operand field by arithmetic (30_encoding.md R62), and a presented reserved word. -/

namespace Sys2Proof.Machine

variable {s : State} {op : Opcode} {arg : Arg} {i : Instr}

theorem levelOperand_eq (arg : Arg) : levelOperand arg =
    if arg.toNat = 0 then some .low else if arg.toNat = 1 then some .medium
    else if arg.toNat = 2 then some .high else none := by
  unfold levelOperand zext32
  split <;> simp_all

theorem reversedOperand_eq (arg : Arg) : reversedOperand arg = decide (arg.toNat ≠ 0) := by
  rw [reversedOperand, Bool.eq_iff_iff, bne_iff_ne, decide_eq_true_iff]
  exact BitVec.toNat_ne_iff_ne.symm

theorem sext32_eq (arg : Arg) :
    sext32 arg = if arg.toNat < 2 ^ 31 then (arg.toNat : Int) else (arg.toNat : Int) - 2 ^ 32 := by
  rw [sext32, BitVec.toInt_eq_toNat_cond]
  split <;> split <;> omega

/-- The sign bit of a pattern, by value. -/
theorem getLsbD_31_eq_decide (arg : Arg) : arg.getLsbD 31 = decide (2 ^ 31 ≤ arg.toNat) := BitVec.msb_eq_decide arg

theorem f32_eq (arg : Arg) : f32 arg =
    (let neg := decide (2 ^ 31 ≤ arg.toNat)
     let e := arg.toNat / 2 ^ 23 % 2 ^ 8
     let f := arg.toNat % 2 ^ 23
     if e = 255 then (if f = 0 then .inf neg else .nan)
     else if e = 0 then .fin neg f
     else .fin neg ((2 ^ 23 + f) * 2 ^ (e - 1))) := by
  simp only [f32, F32.ofBits, getLsbD_31_eq_decide, BitVec.extractLsb'_toNat, Nat.shiftRight_eq_div_pow,
    Nat.pow_zero, Nat.div_one]

/-- The command of a reserved opcode is refused with its word's fields. -/
theorem exec_reads_reserved (h : Reads op arg i) (s : State) (hop : 0xA ≤ op) :
    exec i s = .refused (.reservedWord op arg) := by
  have hres : i.isReserved = true := h.isReserved_iff.mpr hop
  cases h with
  | reservedAB => rfl
  | reservedCF => rfl
  | _ => cases hres

/-- A presented reserved word runs in every phase (92_eei_decisions.md D4). -/
theorem State.nextMove_reserved_run (hr : s.pins.rst = false) (hb : s.hasBeenReset = true)
    (hv : s.pins.cmdValid = true) (hres : (decode s.pins.cmdWord).isReserved = true) :
    s.nextMove = .run (decode s.pins.cmdWord) := by
  unfold State.nextMove
  rw [if_neg (by simp [hr]), if_neg (by simp [hb]), if_pos ⟨hv, .inr hres⟩]

end Sys2Proof.Machine
end

section
/-! The obligations of 30_encoding.md. -/

namespace Sys2Proof.Machine

/-- Settles O14: a well-formed command stands in the opcode map with its own opcode and operand, and the decoder is
the map. -/
theorem decodeOfEncode : Obligations.DecodeOfEncode := fun _ hwf => (Instr.reads_of_wf hwf).decode_cmdWord

/-- Settles O15, from the opcode and the operand that a row keeps. -/
theorem encodeOfDecode : Obligations.EncodeOfDecode := by
  intro w
  have h : Reads (opField w) (argField w) (decode w) := reads_decode w
  refine ⟨h.wf, ?_⟩
  rw [encode, h.opcode, h.argBits]
  split
  · rfl
  · exact cmdWord_fields w

/-- Settles O16: a row covers a word by its opcode, and each opcode has one row. -/
theorem opcodeTablePartition : Obligations.OpcodeTablePartition := by
  refine ⟨fun w => ?_, mnemonic_decode_cmdWord⟩
  rw [List.filter_congr fun r hr => covers_of_mem_opcodeTable hr w, opcodeTable_filter_opcode,
    mnemonic_decode_cmdWord _ 0 (argField w), cmdWord_fields]

/-- Settles O12, one reading after the other. -/
theorem operandReadings : Obligations.OperandReadings := fun arg =>
  ⟨rfl, levelOperand_eq arg, reversedOperand_eq arg, sext32_eq arg, f32_eq arg⟩

/-- Settles O13, from the rows of the opcode map and the fields of an encoded word. -/
theorem formatsReadOrIgnoreArg : Obligations.FormatsReadOrIgnoreArg := by
  refine ⟨fun arg => ⟨(Reads.enableMux arg).decode_cmdWord, (Reads.disableMux arg).decode_cmdWord,
      (Reads.clear arg).decode_cmdWord, (Reads.segmentTest arg).decode_cmdWord⟩, fun i hi => ?_,
    fun arg => ⟨(Reads.setBrightness arg).decode_cmdWord, (Reads.setDigitOrder arg).decode_cmdWord,
      (Reads.setDecimalPlaces arg).decode_cmdWord, (Reads.sendDec arg).decode_cmdWord,
      (Reads.sendDecReal arg).decode_cmdWord, (Reads.sendHex arg).decode_cmdWord⟩⟩
  obtain ⟨-, harg⟩ := Laws.Fields.statement i
  obtain rfl | rfl | rfl | rfl := hi <;> exact harg

/-- Settles O17: each word is its opcode above its operand, and the opcode map reads it. -/
theorem sampleWordsDecode : Obligations.SampleWordsDecode :=
  ⟨(Reads.setBrightness 2).decode_cmdWord, (Reads.enableMux 0).decode_cmdWord,
    (Reads.setDecimalPlaces 0xFFFFFFFF).decode_cmdWord, (Reads.sendDec 1234).decode_cmdWord,
    (Reads.sendDecReal 0x41400000).decode_cmdWord, (Reads.sendHex 0x1A3).decode_cmdWord,
    (Reads.reservedAB 1 (.inr rfl)).decode_cmdWord,
    (Reads.reservedCF (op := 0xF) 0xFFFFFFFF (by decide)).decode_cmdWord⟩

/-- Settles O18: a reserved opcode's command is refused, also while the block is busy; any other command is one
`accept`, which completes in `Idle`. -/
theorem reservedWordsRefused : Obligations.ReservedWordsRefused := by
  refine ⟨fun op arg => exec_reads_reserved (reads_decode_cmdWord op arg),
    fun op arg s hop hr hb hv hw => ?_, fun op arg s hop hi => ?_⟩
  · have hres : (decode s.pins.cmdWord).isReserved = true := hw ▸ (reads_decode_cmdWord op arg).isReserved_iff.mpr hop
    rw [step, State.nextMove_reserved_run hr hb hv hres, hw]
    exact exec_reads_reserved (reads_decode_cmdWord op arg) s.tick hop
  · have hassigned : ¬ 0xA ≤ op := by bv_omega
    have hres : (decode (cmdWord op arg)).isReserved = false :=
      Bool.eq_false_iff.mpr fun h => hassigned ((reads_decode_cmdWord op arg).isReserved_iff.mp h)
    obtain ⟨f, hf⟩ := exec_eq_accept _ hres
    exact ⟨_, (hf s).trans (State.accept_idle hi)⟩

/-- Settles O19: the row's meaning is the refusal. -/
theorem reservedABStops : Obligations.ReservedABStops := fun _ _ _ => rfl

/-- Settles O20: the row's meaning is the refusal. -/
theorem reservedCFStops : Obligations.ReservedCFStops := fun _ _ _ => rfl

/-- Settles O21: `Pseudo.expand` is R68's table. -/
theorem pseudoExpansions : Obligations.PseudoExpansions := fun _ _ _ _ => ⟨rfl, rfl, rfl, rfl⟩

/-- Settles O22, by assembling each line. -/
theorem assemblerExamples : Obligations.AssemblerExamples := by
  unfold Obligations.AssemblerExamples
  decide +kernel

end Sys2Proof.Machine
end

section
/-! SUPPORT. The overlay bit by bit, and the entries of the lookup table (40_encoder.md R82, R85). -/

namespace Sys2Proof.Machine

/-- The mask `0x80` is the one bit 7. -/
theorem getLsbD_overlayDecimalPoint (b : Byte) (k : Nat) :
    (overlayDecimalPoint b).getLsbD k = (b.getLsbD k || decide (k = 7)) := by
  have hmask : (0x80 : Byte) = BitVec.twoPow 8 7 := by decide
  simp [overlayDecimalPoint, hmask, BitVec.getLsbD_twoPow, eq_comm]

theorem overlayDecimalPoint_point (b : Byte) : (overlayDecimalPoint b).getLsbD 7 = true := by
  simp only [getLsbD_overlayDecimalPoint, decide_true, Bool.or_true]

theorem overlayDecimalPoint_segment {k : Nat} (hk : k < 7) (b : Byte) :
    (overlayDecimalPoint b).getLsbD k = b.getLsbD k := by
  simp [getLsbD_overlayDecimalPoint, hk.ne]

theorem overlayDecimalPoint_idem (b : Byte) :
    overlayDecimalPoint (overlayDecimalPoint b) = overlayDecimalPoint b := by
  simp [overlayDecimalPoint, BitVec.or_assoc]

/-- The two bytes differ in the point. -/
theorem overlayDecimalPoint_ne_self {b : Byte} (h : b.getLsbD 7 = false) : overlayDecimalPoint b ≠ b := by
  intro heq
  have hpoint : b.getLsbD 7 = true := heq ▸ overlayDecimalPoint_point b
  exact Bool.false_ne_true (h.symm.trans hpoint)

theorem encodeDigit_ne_blank (d : Digit) : encodeDigit d ≠ 0x00 := by
  revert d; decide

/-- The sixteen entries of the lookup table are pairwise distinct. -/
theorem encodeDigit_injective : Function.Injective encodeDigit := by
  unfold Function.Injective
  decide

end Sys2Proof.Machine
end

section
/-! The obligations of 40_encoder.md. -/

namespace Sys2Proof.Machine

/-- Settles O1: the ROM is R80's table, and `encodeDigit` reads it. -/
theorem lookupTableContents : Obligations.LookupTableContents := ⟨rfl, fun _ => rfl⟩

/-- Settles O2: the point of every entry is clear, so the overlay changes it; the rest is the table's entries. -/
theorem lookupTableFacts : Obligations.LookupTableFacts :=
  ⟨fun d => ⟨encodeDigit_point d, overlayDecimalPoint_ne_self (encodeDigit_point d)⟩, encodeDigit_ne_blank,
    fun _ _ h => encodeDigit_injective h⟩

/-- Settles O3, from the overlay's bits. -/
theorem overlaySetsOnlyThePointBit : Obligations.OverlaySetsOnlyThePointBit := fun b =>
  ⟨rfl, overlayDecimalPoint_point b, fun _ hk => overlayDecimalPoint_segment hk b, overlayDecimalPoint_idem b⟩

/-- Settles O4: the point is the unit's point enable, and the overlay leaves the table's segments. -/
theorem encoderUnitOutput : Obligations.EncoderUnitOutput := fun d _ =>
  ⟨rfl, encUnit_point d true, fun _ hk => overlayDecimalPoint_segment hk (encodeDigit d)⟩

end Sys2Proof.Machine
end

section
/-! SUPPORT. The digits of the base-10 decomposition, the base-16 loop in closed form, and the bounds of the integer
mapping (41_decomposer.md R90 to R94). -/

namespace Sys2Proof.Machine

variable (v : Int) (t n : Nat) (arg : Arg) (dp : Places)

/-! ## Base 10 -/

/-- A remainder modulo 10 fits the four bits of a digit. -/
@[simp] theorem toNat_decimalDigit : (BitVec.ofNat 4 (n % 10)).toNat = n % 10 := by
  rw [BitVec.toNat_ofNat]
  omega

theorem getElem?_decomposeDecimal {k : Nat} (hk : k < 4) :
    (decomposeDecimal v)[k]? = some (BitVec.ofNat 4 ((v % 10000).toNat / 10 ^ k % 10)) := by
  match k, hk with
  | 0, _ => simp [decomposeDecimal]
  | 1, _ | 2, _ | 3, _ => rfl

theorem mem_decomposeDecimal {d : Digit} (h : d ∈ decomposeDecimal v) : ∃ k : Nat, d = BitVec.ofNat 4 (k % 10) := by
  simp only [decomposeDecimal, List.mem_cons, List.not_mem_nil, or_false] at h
  obtain h | h | h | h := h <;> exact ⟨_, h⟩

/-- Only the floor remainder modulo 10000 is decomposed. -/
theorem decomposeDecimal_congr {v w : Int} (h : v % 10000 = w % 10000) : decomposeDecimal v = decomposeDecimal w := by
  rw [decomposeDecimal, decomposeDecimal, h]

/-! ## Base 16 -/

/-- The loop in closed form: one digit for each significant nibble of `t`, one for zero, and no more than `cap`. -/
theorem hexLoop_eq_map (cap : Nat) :
    hexLoop cap t = (List.range (min cap (Nat.log 16 t + 1))).map fun k => BitVec.ofNat 4 (t / 16 ^ k % 16) := by
  induction cap generalizing t with
  | zero => simp [hexLoop]
  | succ cap ih =>
    rw [hexLoop, Nat.add_min_add_right, List.range_succ_eq_map, List.map_cons, List.map_map, pow_zero, Nat.div_one]
    congr 1
    by_cases h : t / 16 = 0
    · have hlog : Nat.log 16 t = 0 := Nat.log_of_lt (by omega)
      simp [h, hlog]
    · have hlog : Nat.log 16 t = Nat.log 16 (t / 16) + 1 := Nat.log_of_one_lt_of_le (by decide) (by omega)
      rw [if_neg h, ih, hlog]
      exact List.map_congr_left fun k _ => by rw [Function.comp, Nat.div_div_eq_div_mul, pow_succ']

/-- After the reduction modulo 0x10000 there are at most four significant nibbles. -/
theorem log_mod_lt_four : Nat.log 16 (n % 0x10000) < 4 :=
  Nat.log_lt_of_lt_pow' (by decide) (Nat.mod_lt _ (by decide))

/-- So a cap of four or more cuts no digit. -/
theorem hexLoop_mod {cap : Nat} (hcap : 4 ≤ cap) : hexLoop cap (n % 0x10000) =
    (List.range (Nat.log 16 (n % 0x10000) + 1)).map fun k => BitVec.ofNat 4 (n % 0x10000 / 16 ^ k % 16) := by
  have := log_mod_lt_four n
  rw [hexLoop_eq_map, Nat.min_eq_right (by omega)]

theorem length_decomposeHex : (decomposeHex n).length = Nat.log 16 (n % 0x10000) + 1 := by
  rw [decomposeHex, hexLoop_mod n le_rfl, List.length_map, List.length_range]

theorem getElem?_decomposeHex {k : Nat} (hk : k < (decomposeHex n).length) :
    (decomposeHex n)[k]? = some (BitVec.ofNat 4 (n % 0x10000 / 16 ^ k % 16)) := by
  rw [length_decomposeHex] at hk
  rw [decomposeHex, hexLoop_mod n le_rfl, List.getElem?_map, List.getElem?_range hk, Option.map_some]

/-- The loop's digit `k` is nibble `k` of the reduced value. -/
theorem extractLsb'_nibble (k : Nat) (ht : t < 2 ^ 16) :
    (BitVec.ofNat 16 t).extractLsb' (4 * k) 4 = BitVec.ofNat 4 (t / 16 ^ k % 16) := by
  apply BitVec.eq_of_toNat_eq
  rw [BitVec.extractLsb'_toNat, BitVec.toNat_ofNat, BitVec.toNat_ofNat, Nat.mod_eq_of_lt ht,
    Nat.shiftRight_eq_div_pow, pow_mul, Nat.mod_mod]
  rfl

/-! ## The integer mapping -/

/-- A product with `10^DP` lies in the range of one with `10^4`. -/
theorem scaledInt_bounds :
    -2 ^ 31 * 10 ^ 4 ≤ scaledInt (sext32 arg) dp ∧ scaledInt (sext32 arg) dp ≤ (2 ^ 31 - 1) * 10 ^ 4 := by
  have hlo : -2 ^ 31 ≤ sext32 arg := BitVec.le_toInt arg
  have hhi : sext32 arg < 2 ^ 31 := BitVec.toInt_lt
  have hpos : (0 : Int) < 10 ^ dp.val := by positivity
  have hpow : (10 : Int) ^ dp.val ≤ 10 ^ 4 := pow_le_pow_right₀ (by decide) (by omega)
  unfold scaledInt
  constructor <;> nlinarith

end Sys2Proof.Machine
end

section
/-! SUPPORT. Rounding to binary32: the rounded magnitude is nearest among the values of 24 significant bits, ties to
even, and reaches 2^128 from the midpoint below it on (41_decomposer.md R95; 93_implementation_defined.md GK3,
assumption 8). -/

namespace Sys2Proof.Machine

variable {n d : Nat}

/-! ## The length in bits -/

theorem bitLength_le {k : Nat} : bitLength n ≤ k ↔ n < 2 ^ k := by
  unfold bitLength
  split
  · next h => simp [h]
  · next h => exact Nat.log2_lt h

theorem lt_bitLength {k : Nat} : k < bitLength n ↔ 2 ^ k ≤ n := by
  rw [← not_le, bitLength_le, not_lt]

/-- A value is written with its exponent when its significand fills 24 bits, or is below that at the exponent 0. -/
theorem bitLength_sub_of_normal {f q : Nat} (hf : f < 2 ^ 24) (hq : q = 0 ∨ 2 ^ 23 ≤ f) :
    bitLength (f * 2 ^ q) - 24 = q := by
  have hle : bitLength (f * 2 ^ q) ≤ 24 + q := by
    rw [bitLength_le, pow_add]
    exact Nat.mul_lt_mul_of_pos_right hf (by positivity)
  obtain rfl | hfull := hq
  · omega
  · have hlt : 23 + q < bitLength (f * 2 ^ q) := by
      rw [lt_bitLength, pow_add]
      exact Nat.mul_le_mul_right _ hfull
    omega

/-! ## The nearest integer -/

/-- How far `r` is from `n / d`, in units of `1 / d`. -/
def roundError (n d r : Nat) : Nat := ((n : Int) - r * d).natAbs

theorem roundError_mul_right (c w : Nat) : roundError n (d * c) w = roundError n d (w * c) := by
  rw [roundError, roundError, Nat.cast_mul, Nat.cast_mul, mul_assoc, mul_comm (c : Int)]

/-- Below `n / d`, the greater of two values is nearer. -/
theorem roundError_lt {v w : Nat} (hd : 0 < d) (hvw : v < w) (hw : w ≤ n / d) :
    roundError n d w < roundError n d v := by
  have hv : v * d < w * d := Nat.mul_lt_mul_of_pos_right hvw hd
  have hn : w * d ≤ n := (Nat.le_div_iff_mul_le hd).mp hw
  unfold roundError
  zify at hv hn
  omega

/-- The error is at most half of the divisor, and a half only at an even quotient. -/
theorem roundQuotient_error (hd : 0 < d) :
    2 * roundError n d (roundQuotient n d) ≤ d ∧
    (2 * roundError n d (roundQuotient n d) = d → roundQuotient n d % 2 = 0) := by
  have hr : n % d < d := Nat.mod_lt n hd
  have hn : (n : Int) = (n / d : Nat) * d + (n % d : Nat) := by exact_mod_cast (Nat.div_add_mod' n d).symm
  have hdown : roundError n d (n / d) = n % d := by
    unfold roundError
    omega
  have hup : roundError n d (n / d + 1) = d - n % d := by
    rw [roundError, Nat.cast_add_one, add_mul]
    omega
  unfold roundQuotient
  dsimp only
  split
  · rw [hdown]
    omega
  · split
    · rw [hup]
      omega
    · obtain heven | hodd := Nat.mod_two_eq_zero_or_one (n / d)
      · rw [heven, Nat.add_zero, hdown]
        omega
      · rw [hodd, hup]
        omega

/-- No integer is nearer, and another one is as near only when the rounded one is even. -/
theorem roundQuotient_nearest (hd : 0 < d) {w : Nat} (hw : w ≠ roundQuotient n d) :
    roundError n d (roundQuotient n d) ≤ roundError n d w ∧
    (roundError n d (roundQuotient n d) = roundError n d w → roundQuotient n d % 2 = 0) := by
  obtain ⟨herr, heven⟩ := roundQuotient_error (n := n) hd
  have hgap : (w + 1) * d ≤ roundQuotient n d * d ∨ (roundQuotient n d + 1) * d ≤ w * d :=
    (Nat.lt_or_gt_of_ne hw).imp (Nat.mul_le_mul_right d) (Nat.mul_le_mul_right d)
  rw [Nat.succ_mul, Nat.succ_mul] at hgap
  unfold roundError at *
  zify at hgap
  omega

/-- An even integer is reached from the midpoint below it on. -/
theorem le_roundQuotient_iff_of_even (hd : 0 < d) {w : Nat} (hw : w % 2 = 0) :
    w ≤ roundQuotient n d ↔ 2 * w * d ≤ 2 * n + d := by
  obtain ⟨herr, heven⟩ := roundQuotient_error (n := n) hd
  unfold roundError at herr heven
  rw [mul_assoc]
  constructor
  · intro hle
    have hmul : w * d ≤ roundQuotient n d * d := Nat.mul_le_mul_right d hle
    zify at hmul ⊢
    omega
  · intro hmid
    by_contra hlt
    have hmul : (roundQuotient n d + 1) * d ≤ w * d := Nat.mul_le_mul_right d (not_le.mp hlt)
    have hnext : roundQuotient n d + 1 = w := by
      refine Nat.eq_of_mul_eq_mul_right hd (le_antisymm hmul ?_)
      rw [Nat.succ_mul]
      zify at hmid ⊢
      omega
    have htie : roundQuotient n d % 2 = 0 := by
      apply heven
      rw [Nat.succ_mul] at hmul
      zify at hmid hmul ⊢
      omega
    omega

theorem div_le_roundQuotient : n / d ≤ roundQuotient n d := by
  unfold roundQuotient
  dsimp only
  split_ifs <;> omega

theorem roundQuotient_le : roundQuotient n d ≤ n / d + 1 := by
  unfold roundQuotient
  dsimp only
  split_ifs <;> omega

/-! ## Rounding to 24 significant bits -/

/-- The exponent that `roundF32` rounds at: the quotient has 24 bits above it. -/
def roundExp (n d : Nat) : Nat := bitLength (n / d) - 24

/-- The rounded significand; it is 2^24 when rounding carries out of 24 bits. -/
def roundSig (n d : Nat) : Nat := roundQuotient n (d * 2 ^ roundExp n d)

/-- The rounded magnitude, before the limit of binary32. -/
def roundMag (n d : Nat) : Nat := roundSig n d * 2 ^ roundExp n d

theorem roundF32_eq (neg : Bool) (n d : Nat) :
    roundF32 neg n d = if f32Limit ≤ roundMag n d then .inf neg else .fin neg (roundMag n d) := rfl

theorem div_lt_two_pow_mul_roundExp : n / d < 2 ^ 24 * 2 ^ roundExp n d := by
  rw [← pow_add, ← bitLength_le, roundExp]
  omega

/-- A positive exponent is used for a quotient of more than 24 bits. -/
theorem two_pow_mul_roundExp_le_div (h : roundExp n d ≠ 0) : 2 ^ 23 * 2 ^ roundExp n d ≤ n / d := by
  rw [← pow_add, ← lt_bitLength]
  unfold roundExp at *
  omega

theorem roundSig_le : roundSig n d ≤ 2 ^ 24 := by
  have hlt : n / (d * 2 ^ roundExp n d) < 2 ^ 24 := by
    rw [← Nat.div_div_eq_div_mul, Nat.div_lt_iff_lt_mul (by positivity)]
    exact div_lt_two_pow_mul_roundExp
  exact roundQuotient_le.trans hlt

theorem le_roundSig (h : roundExp n d ≠ 0) : 2 ^ 23 ≤ roundSig n d := by
  refine le_trans ?_ div_le_roundQuotient
  rw [← Nat.div_div_eq_div_mul, Nat.le_div_iff_mul_le (by positivity)]
  exact two_pow_mul_roundExp_le_div h

/-- The rounded magnitude in its own 24 bits: a carry out of them leaves an even significand. -/
theorem exists_roundMag_eq (n d : Nat) : ∃ f q, f < 2 ^ 24 ∧ roundMag n d = f * 2 ^ q ∧ (q = 0 ∨ 2 ^ 23 ≤ f) ∧
    (roundSig n d % 2 = 0 → f % 2 = 0) := by
  obtain hlt | hcarry := Nat.lt_or_eq_of_le (roundSig_le (n := n) (d := d))
  · exact ⟨roundSig n d, roundExp n d, hlt, rfl, or_iff_not_imp_left.mpr le_roundSig, id⟩
  · refine ⟨2 ^ 23, roundExp n d + 1, by decide, ?_, .inr le_rfl, fun _ => by decide⟩
    rw [roundMag, hcarry, pow_succ]
    ring

/-- The last bit of the rounded magnitude is that of the rounded significand, when that is even. -/
theorem roundMag_even (h : roundSig n d % 2 = 0) : roundMag n d / 2 ^ (bitLength (roundMag n d) - 24) % 2 = 0 := by
  obtain ⟨f, q, hf, hmag, hnormal, heven⟩ := exists_roundMag_eq n d
  rw [hmag, bitLength_sub_of_normal hf hnormal, Nat.mul_div_cancel _ (by positivity)]
  exact heven h

/-- Among the multiples of the last place the rounded magnitude is nearest, ties to even. -/
theorem roundMag_nearest_multiple (hd : 0 < d) {w : Nat} (hw : w * 2 ^ roundExp n d ≠ roundMag n d) :
    roundError n d (roundMag n d) ≤ roundError n d (w * 2 ^ roundExp n d) ∧
    (roundError n d (roundMag n d) = roundError n d (w * 2 ^ roundExp n d) → roundSig n d % 2 = 0) := by
  have hsig : w ≠ roundSig n d := fun h => hw (by rw [h, roundMag])
  rw [roundMag, ← roundError_mul_right, ← roundError_mul_right]
  exact roundQuotient_nearest (by positivity) hsig

/-- A value of 24 bits off the last place is below 2^23 places, which are nearer to the quotient. -/
theorem roundMag_nearer {f q : Nat} (hd : 0 < d) (hf : f < 2 ^ 24) (hq : q < roundExp n d) :
    roundError n d (roundMag n d) < roundError n d (f * 2 ^ q) := by
  have hlt : f * 2 ^ q < 2 ^ 23 * 2 ^ roundExp n d :=
    calc f * 2 ^ q < 2 ^ 24 * 2 ^ q := Nat.mul_lt_mul_of_pos_right hf (by positivity)
      _ = 2 ^ 23 * 2 ^ (q + 1) := by ring
      _ ≤ 2 ^ 23 * 2 ^ roundExp n d := Nat.mul_le_mul_left _ (Nat.pow_le_pow_right (by decide) hq)
  refine lt_of_le_of_lt ?_ (roundError_lt hd hlt (two_pow_mul_roundExp_le_div (by omega)))
  obtain heq | hne := eq_or_ne (2 ^ 23 * 2 ^ roundExp n d) (roundMag n d)
  · rw [heq]
  · exact (roundMag_nearest_multiple hd hne).1

/-- No value of 24 significant bits is nearer, and another one is as near only when the last bit is even. -/
theorem roundMag_nearest {f q : Nat} (hd : 0 < d) (hf : f < 2 ^ 24) :
    roundError n d (roundMag n d) ≤ roundError n d (f * 2 ^ q) ∧
    (f * 2 ^ q ≠ roundMag n d → roundError n d (roundMag n d) = roundError n d (f * 2 ^ q) →
      roundMag n d / 2 ^ (bitLength (roundMag n d) - 24) % 2 = 0) := by
  obtain heq | hne := eq_or_ne (f * 2 ^ q) (roundMag n d)
  · exact ⟨by rw [heq], fun hne => absurd heq hne⟩
  obtain hlt | hle := Nat.lt_or_ge q (roundExp n d)
  · have hnear : roundError n d (roundMag n d) < roundError n d (f * 2 ^ q) := roundMag_nearer hd hf hlt
    exact ⟨hnear.le, fun _ htie => absurd htie hnear.ne⟩
  · have hmul : f * 2 ^ q = f * 2 ^ (q - roundExp n d) * 2 ^ roundExp n d := by
      rw [mul_assoc, pow_sub_mul_pow 2 hle]
    rw [hmul] at hne ⊢
    obtain ⟨hnear, htie⟩ := roundMag_nearest_multiple hd hne
    exact ⟨hnear, fun _ h => roundMag_even (htie h)⟩

/-! ## The limit -/

/-- Rounding reaches 2^128 from the midpoint below it on: that midpoint has the exponent 253, the greatest one of a
finite value. -/
theorem f32Limit_le_roundMag_iff (hd : 0 < d) : f32Limit ≤ roundMag n d ↔ (2 ^ 25 - 1) * 2 ^ 252 * d ≤ n := by
  unfold f32Limit
  obtain hlt | heq | hgt := lt_trichotomy (roundExp n d) 253
  · have hpow : 2 ^ roundExp n d ≤ 2 ^ 252 := Nat.pow_le_pow_right (by decide) (by omega)
    have hmag : roundMag n d ≤ 2 ^ 24 * 2 ^ 252 := Nat.mul_le_mul roundSig_le hpow
    have hdiv : n / d < 2 ^ 24 * 2 ^ 252 := div_lt_two_pow_mul_roundExp.trans_le (Nat.mul_le_mul_left _ hpow)
    have hn : n < 2 ^ 24 * 2 ^ 252 * d := (Nat.div_lt_iff_lt_mul hd).mp hdiv
    omega
  · have hsig : 2 ^ 24 ≤ roundSig n d ↔ 2 * 2 ^ 24 * (d * 2 ^ 253) ≤ 2 * n + d * 2 ^ 253 := by
      rw [roundSig, heq]
      exact le_roundQuotient_iff_of_even (by positivity) (by decide)
    rw [roundMag, heq]
    omega
  · have hpow : 2 ^ 254 ≤ 2 ^ roundExp n d := Nat.pow_le_pow_right (by decide) hgt
    have hmag : 2 ^ 23 * 2 ^ 254 ≤ roundMag n d := Nat.mul_le_mul (le_roundSig (by omega)) hpow
    have hdiv : 2 ^ 23 * 2 ^ 254 ≤ n / d :=
      (Nat.mul_le_mul_left _ hpow).trans (two_pow_mul_roundExp_le_div (by omega))
    have hn : 2 ^ 23 * 2 ^ 254 * d ≤ n := (Nat.le_div_iff_mul_le hd).mp hdiv
    omega

/-! ## The product of two finite values -/

theorem F32.fin_mul_fin_eq_inf_iff {a b neg : Bool} {m k : Nat} :
    (F32.fin a m).mul (.fin b k) = .inf neg ↔ neg = (a ^^ b) ∧ f32Limit ≤ roundMag (m * k) f32One := by
  rw [F32.fin_mul_fin, roundF32_eq]
  split <;> simp [eq_comm, *]

theorem F32.fin_mul_fin_eq_fin_iff {a b neg : Bool} {m k r : Nat} :
    (F32.fin a m).mul (.fin b k) = .fin neg r ↔
      neg = (a ^^ b) ∧ r = roundMag (m * k) f32One ∧ ¬ f32Limit ≤ roundMag (m * k) f32One := by
  rw [F32.fin_mul_fin, roundF32_eq]
  split <;> simp [eq_comm, *]

/-- The error of a rounded product, as an integer distance. -/
theorem roundError_product (m k r : Nat) :
    roundError (m * k) f32One r = ((m * k : Int) - r * 2 ^ 149).natAbs := by
  simp [roundError, f32One]

end Sys2Proof.Machine
end

section
/-! SUPPORT. The scaled value of SEND_DEC_REAL, by the kind of the product and of the operand (41_decomposer.md R95). -/

namespace Sys2Proof.Machine

variable {arg : Arg} {dp : Places}

/-- The constants of the multiply are the powers of ten, exactly. -/
theorem f32_p10f : ∀ dp : Places, f32 (p10f dp) = .fin false (10 ^ dp.val * f32One) := by decide +kernel

theorem scaledReal_of_product {p : F32} (h : realProduct arg dp = p) :
    scaledReal arg dp = p.toU16.getD (Config.realOor arg dp) := by
  rw [scaledReal_eq, h]

theorem scaledReal_of_product_nan (h : realProduct arg dp = .nan) : scaledReal arg dp = Config.realOor arg dp := by
  rw [scaledReal_of_product h, F32.toU16_nan, Option.getD_none]

theorem scaledReal_of_product_inf {neg : Bool} (h : realProduct arg dp = .inf neg) :
    scaledReal arg dp = Config.realOor arg dp := by
  rw [scaledReal_of_product h, F32.toU16_inf, Option.getD_none]

theorem scaledReal_of_product_neg {mag : Nat} (h : realProduct arg dp = .fin true mag) :
    scaledReal arg dp = if f32One ≤ mag then Config.realOor arg dp else 0 := by
  rw [scaledReal_of_product h, F32.toU16_neg]
  split <;> rfl

theorem scaledReal_of_product_pos {mag : Nat} (h : realProduct arg dp = .fin false mag) :
    scaledReal arg dp =
      if 65536 * f32One ≤ mag then Config.realOor arg dp else BitVec.ofNat 16 (mag / f32One) := by
  rw [scaledReal_of_product h, F32.toU16_pos]
  split <;> rfl

/-- A NaN makes the product NaN. -/
theorem realProduct_of_nan (h : f32 arg = .nan) : realProduct arg dp = .nan := by
  rw [realProduct, h, F32.nan_mul]

/-- An infinity stays one: no power of ten is zero. -/
theorem realProduct_of_inf {neg : Bool} (h : f32 arg = .inf neg) : realProduct arg dp = .inf neg := by
  have hpos : 10 ^ dp.val * f32One ≠ 0 := by unfold f32One; positivity
  rw [realProduct, h, f32_p10f, F32.inf_mul_fin, if_neg hpos, Bool.xor_false]

end Sys2Proof.Machine
end

section
/-! The obligations of 41_decomposer.md. -/

namespace Sys2Proof.Machine

/-- Settles O6: each digit is a remainder modulo 10, and the four recompose the remainder modulo 10000. -/
theorem decimalDecompositionFacts : Obligations.DecimalDecompositionFacts := by
  refine ⟨fun v d hd => ?_, length_decomposeDecimal, fun v j => ?_, rfl, fun v => ⟨_, _, _, _, rfl, ?_⟩⟩
  · obtain ⟨k, rfl⟩ := mem_decomposeDecimal v hd
    rw [toNat_decimalDigit]
    omega
  · exact decomposeDecimal_congr (Int.add_mul_emod_self_left v 10000 j)
  · simp only [toNat_decimalDigit]
    omega

/-- Settles O7, from the closed form: the loop has one digit for each significant nibble. -/
theorem hexLoopDigits : Obligations.HexLoopDigits := by
  intro v t h
  have hlen : h.length = Nat.log 16 t + 1 := length_decomposeHex v
  refine ⟨length_decomposeHex_pos v, length_decomposeHex_le v, fun k => getElem?_decomposeHex v, .inl ?_,
    fun k hk hlt => ?_⟩
  · rw [hlen]
    exact Nat.div_eq_of_lt (Nat.lt_pow_succ_log_self (by decide) t)
  · have ht : t ≠ 0 := by
      rintro h0
      rw [h0, Nat.log_zero_right] at hlen
      omega
    have hle : 16 ^ k ≤ t := Nat.pow_le_of_le_log ht (by omega)
    exact (Nat.div_pos hle (by positivity)).ne'

/-- Settles O8, from the closed form. -/
theorem hexDecompositionFacts : Obligations.HexDecompositionFacts := by
  intro v t
  have hlen : (decomposeHex v).length = Nat.log 16 t + 1 := length_decomposeHex v
  refine ⟨fun ht => ?_, fun _ => hlen, fun cap hcap => ?_, fun k hk => ?_, fun d _ => Nat.le_of_lt_succ d.isLt⟩
  · rw [hlen, ht, Nat.log_zero_right]
  · exact (hexLoop_mod v hcap).trans (hexLoop_mod v le_rfl).symm
  · rw [getElem?_decomposeHex v hk, extractLsb'_nibble t k (Nat.mod_lt v (by decide))]

/-- Settles O11: a finite product is the rounded magnitude, nearest among the values of 24 bits; an infinite one is a
magnitude at the limit, reached from the midpoint on. -/
theorem multiplyRoundsToNearestEven : Obligations.MultiplyRoundsToNearestEven := by
  intro a b m n
  have hd : 0 < f32One := Nat.two_pow_pos 149
  have hlimit : f32Limit ≤ roundMag (m * n) f32One ↔ (2 ^ 25 - 1) * 2 ^ 252 * 2 ^ 149 ≤ m * n :=
    f32Limit_le_roundMag_iff hd
  refine ⟨fun neg r h => ?_, ?_, fun neg h => (F32.fin_mul_fin_eq_inf_iff.mp h).1, ?_, fun hlt => ?_⟩
  · obtain ⟨hneg, rfl, -⟩ := F32.fin_mul_fin_eq_fin_iff.mp h
    obtain ⟨f, q, hf, hmag, -, -⟩ := exists_roundMag_eq (m * n) f32One
    refine ⟨hneg, ⟨f, q, hf, hmag⟩, fun f q hf => ?_⟩
    have hnear := roundMag_nearest (n := m * n) (q := q) hd hf
    rw [roundError_product, roundError_product] at hnear
    exact_mod_cast hnear
  · exact ⟨fun ⟨_, h⟩ => hlimit.mp (F32.fin_mul_fin_eq_inf_iff.mp h).2,
      fun h => ⟨_, F32.fin_mul_fin_eq_inf_iff.mpr ⟨rfl, hlimit.mpr h⟩⟩⟩
  · obtain h | ⟨_, -, h⟩ := roundF32_cases (a ^^ b) (m * n) f32One <;> simp [F32.fin_mul_fin, h]
  · exact ⟨_, F32.fin_mul_fin_eq_fin_iff.mpr ⟨rfl, rfl, by rw [hlimit]; omega⟩⟩

/-- Settles O5: the digits by position; the callers' values by the bounds of the operand and of `10^DP`. -/
theorem decimalDigitsOfFloorRemainder : Obligations.DecimalDigitsOfFloorRemainder := by
  refine ⟨fun v => ⟨length_decomposeDecimal v, fun k => getElem?_decomposeDecimal v⟩, fun arg dp => ?_⟩
  obtain ⟨hlo, hhi⟩ := scaledInt_bounds arg dp
  exact ⟨hlo, hhi, by omega, by omega, Nat.le_of_lt_succ (scaledReal arg dp).isLt⟩

/-- Settles O9: the bound is that of the operand and of `10^DP`; the reduction is a congruence. -/
theorem integerScalingIsExact : Obligations.IntegerScalingIsExact := by
  intro arg dp
  obtain ⟨hlo, hhi⟩ := scaledInt_bounds arg dp
  exact ⟨rfl, abs_lt.mpr ⟨by omega, by omega⟩, mul_one _, ((Int.mod_modEq _ _).mul_right _).symm⟩

/-- Settles O10: the conversion case by case; an infinite operand has an infinite product and a NaN a NaN. -/
theorem realScalingTruncatesOrIsOpen : Obligations.RealScalingTruncatesOrIsOpen := by
  intro arg dp
  refine ⟨f32_p10f dp, scaledReal_of_product_nan, fun _ => scaledReal_of_product_inf, fun mag hp => ?_,
    fun mag hp => ?_, fun h => scaledReal_of_product_nan (realProduct_of_nan h),
    fun _ h => scaledReal_of_product_inf (realProduct_of_inf h)⟩
  · exact ⟨fun h => (scaledReal_of_product_neg hp).trans (if_pos h),
      fun h => (scaledReal_of_product_neg hp).trans (if_neg (not_le.mpr h))⟩
  · refine ⟨fun h => (scaledReal_of_product_pos hp).trans (if_pos h), fun h => ?_⟩
    have hfits : mag / 2 ^ 149 < 2 ^ 16 := (Nat.div_lt_iff_lt_mul (by positivity)).mpr h
    rw [(scaledReal_of_product_pos hp).trans (if_neg (not_le.mpr h)), BitVec.toNat_ofNat]
    exact Nat.mod_eq_of_lt hfits

end Sys2Proof.Machine
end

section
/-! SUPPORT. The configuration commands (42_config_commands.md): the operands they store, the multiplex bits that
SET_BRIGHTNESS keeps, and where a frame's register-select byte stands. -/

namespace Sys2Proof.Machine

/-! ## The operands they store -/

/-- The brightness bits by the operand's value: LOW but for 2 and 1 (R110). -/
theorem brightnessBits_levelOperand (arg : Arg) : brightnessBits (levelOperand arg) =
    if arg.toNat = 2 then 0x40 else if arg.toNat = 1 then 0x20 else 0x10 := by
  rw [levelOperand_eq]
  by_cases h2 : arg.toNat = 2
  · simp [h2, brightnessBits]
  by_cases h1 : arg.toNat = 1
  · simp [h1, brightnessBits]
  by_cases h0 : arg.toNat = 0 <;> simp [h2, h1, h0, brightnessBits]

/-- The stored decimal places by the operand's value (R114). -/
theorem placesOperand_val (arg : Arg) :
    ((placesOperand arg).val : Int) = if 0 ≤ arg.toInt ∧ arg.toInt ≤ 4 then arg.toInt else 0 := by
  by_cases h : 0 ≤ arg.toInt ∧ arg.toInt ≤ 4
  · have hstored : placesOperand arg = ⟨arg.toInt.toNat, by omega⟩ := dif_pos h
    rw [hstored, if_pos h]
    exact Int.toNat_of_nonneg h.1
  · have hstored : placesOperand arg = 0 := dif_neg h
    rw [hstored, if_neg h]
    rfl

/-! ## The multiplex bits -/

theorem muxbField_or (a b : Byte) : muxbField (a ||| b) = muxbField a ||| muxbField b := BitVec.extractLsb'_or

theorem muxbField_and (a b : Byte) : muxbField (a &&& b) = muxbField a &&& muxbField b := BitVec.extractLsb'_and

@[simp] theorem muxbField_brightnessBits (l : Option Level) : muxbField (brightnessBits l) = 0#3 := by
  cases l with
  | none => rfl
  | some l => cases l <;> rfl

/-- SET_BRIGHTNESS keeps the multiplex bits (R110). -/
@[simp] theorem muxbField_setBrightnessBits (cmd : Byte) (l : Option Level) :
    muxbField (setBrightnessBits cmd (brightnessBits l)) = muxbField cmd := by
  have hmask : muxbField 0x8F = BitVec.allOnes 3 := by decide
  rw [setBrightnessBits, muxbField_or, muxbField_and, hmask, BitVec.and_allOnes, muxbField_brightnessBits,
    BitVec.or_zero]

/-! ## Frames -/

/-- `Order` in 2-digit mode sends the base and the tens byte only (R112, R131). -/
theorem Cfg.order_two_digits {c : Cfg} (h : c.muxEn = false) (b0 b1 b2 b3 : Byte) :
    c.order [b0, b1, b2, b3] = if c.rev then [b1, b0] else [b0, b1] := by
  simp [Cfg.order, Cfg.adc, h]

/-- A frame opens once, so what follows its `Begin` is its register-select byte. -/
theorem Cfg.select_of_frame_eq {c : Cfg} {rs b : Byte} {bytes : List Byte} {a : BusAddr} {pre post : List Ev}
    (h : c.frame rs bytes = pre ++ .beginFrame a :: .writeByte b :: post) : b = rs := by
  cases pre with
  | nil =>
    obtain ⟨-, hb, -⟩ : a = c.addr ∧ b = rs ∧ _ := by simpa [Cfg.frame, eq_comm] using h
    exact hb
  | cons e pre =>
    obtain ⟨-, htail⟩ := List.cons_eq_cons.mp h
    have hopen : Ev.beginFrame a ∈ Ev.writeByte rs :: (bytes.map Ev.writeByte ++ [Ev.endFrame]) := by simp [htail]
    simp at hopen

/-- No frame to the digit-data register holds a frame to the command register (20_memory.md R51). -/
theorem Cfg.frame_selDigits_ne {c : Cfg} {bytes : List Byte} {a : BusAddr} {pre post : List Ev} :
    c.frame selDigits bytes ≠ pre ++ .beginFrame a :: .writeByte selCommand :: post := fun h =>
  absurd (Cfg.select_of_frame_eq h) (by decide)

/-- Only SET_BRIGHTNESS and SEGMENT_TEST leave a frame to the command register to emit. -/
theorem Cfg.eventsOf_selCommand {c : Cfg} {i : Instr} {a : BusAddr} {pre post : List Ev}
    (h : c.eventsOf i = pre ++ .beginFrame a :: .writeByte selCommand :: post) :
    (∃ arg, i = .setBrightness arg) ∨ i = .segmentTest := by
  cases i with
  | setBrightness arg => exact .inl ⟨arg, rfl⟩
  | segmentTest => exact .inr rfl
  | clear => exact absurd h Cfg.frame_selDigits_ne
  | sendDec arg => exact absurd h Cfg.frame_selDigits_ne
  | sendDecReal arg => exact absurd h Cfg.frame_selDigits_ne
  | sendHex arg => exact absurd h Cfg.frame_selDigits_ne
  | _ => simp [Cfg.eventsOf] at h

end Sys2Proof.Machine
end

section
/-! The obligations of 42_config_commands.md. -/

namespace Sys2Proof.Machine

/-- Settles O39: the events a command leaves say which register its frames go to; SET_BRIGHTNESS keeps the multiplex
bits and sends the byte it stores. -/
theorem commandByteOnlyFromBrightnessAndTest : Obligations.CommandByteOnlyFromBrightnessAndTest := by
  refine ⟨fun i s t a pre post hi hx hpend => ?_, fun arg s t hi hx => ?_⟩
  · obtain ⟨-, rfl⟩ | ⟨hn, -⟩ := exec_next hx
    · exact Cfg.eventsOf_selCommand ((Phase.pend_ofEvents _).symm.trans hpend)
    · exact absurd hi hn
  · rw [exec_setBrightness_idle arg hi] at hx
    obtain rfl := Host.Outcome.next.inj hx
    exact ⟨muxbField_setBrightnessBits _ _, by simp [Cfg.frame]⟩

/-- Settles O25, from the brightness bits by the operand's value. -/
theorem setBrightnessResult : Obligations.SetBrightnessResult := by
  refine fun arg s => ⟨(Reads.setBrightness arg).decode_cmdWord, fun hi => ?_⟩
  rw [exec_setBrightness_idle arg hi, brightnessBits_levelOperand]
  simp [Cfg.frame, Cfg.withCmd, setBrightnessBits, selCommand]

/-- Settles O26: with `MUX_EN` set `ADC` is 4. -/
theorem enableMuxResult : Obligations.EnableMuxResult := by
  refine fun arg s => ⟨(Reads.enableMux arg).decode_cmdWord, fun hi => ⟨_, exec_enableMux_idle hi, rfl, ?_⟩⟩
  rw [hi]
  rfl

/-- Settles O27: with `MUX_EN` clear `ADC` is 2, and the next digit frame is that of 2-digit mode. -/
theorem disableMuxResult : Obligations.DisableMuxResult := by
  refine fun arg s => ⟨(Reads.disableMux arg).decode_cmdWord,
    fun hi => ⟨_, exec_disableMux_idle hi, rfl, Cfg.order_two_digits rfl, ?_⟩⟩
  rw [hi]
  rfl

/-- Settles O28, from the boolean reading of the operand. -/
theorem setDigitOrderResult : Obligations.SetDigitOrderResult := by
  refine fun arg s => ⟨(Reads.setDigitOrder arg).decode_cmdWord, fun hi => ?_⟩
  rw [exec_setDigitOrder_idle arg hi, reversedOperand_eq, hi]
  rfl

/-- Settles O29, from the stored value of the operand. -/
theorem setDecimalPlacesResult : Obligations.SetDecimalPlacesResult := by
  refine fun arg s => ⟨(Reads.setDecimalPlaces arg).decode_cmdWord,
    fun hi => ⟨placesOperand arg, placesOperand_val arg, ?_⟩⟩
  rw [exec_setDecimalPlaces_idle arg hi, hi]
  rfl

end Sys2Proof.Machine
end

section
/-! SUPPORT. The digit bytes of the display commands (43_display_commands.md R131 to R136): which positions are sent,
which byte has the point, and the phase a frame leaves. -/

namespace Sys2Proof.Machine

variable {c : Cfg} {v : Int} {n k : Nat} {dp : Places} {x : Byte}

/-! ## Frames and digit order -/

/-- A frame is never empty, so it leaves the block busy with all of its events (20_memory.md R46). -/
theorem Cfg.ofEvents_frame (c : Cfg) (rs : Byte) (bytes : List Byte) : Phase.ofEvents (c.frame rs bytes) =
    .busy (Ev.beginFrame c.addr :: Ev.writeByte rs :: (bytes.map Ev.writeByte ++ [Ev.endFrame])) :=
  Phase.ofEvents_cons _ _

/-- `Order` in 4-digit mode sends all four bytes; `Cfg.order_two_digits` is the other mode. -/
theorem Cfg.order_four_digits (h : c.muxEn = true) (b0 b1 b2 b3 : Byte) :
    c.order [b0, b1, b2, b3] = if c.rev then [b3, b2, b1, b0] else [b0, b1, b2, b3] := by
  simp [Cfg.order, Cfg.adc, h]

/-- A sent byte stands at one of the first `ADC` positions. -/
theorem Cfg.exists_position_of_mem_order {b : List Byte} (h : x ∈ c.order b) : ∃ k < c.adc, b[k]? = some x := by
  have htake : x ∈ b.take c.adc := by
    unfold Cfg.order at h
    split at h
    · exact List.mem_reverse.mp h
    · exact h
  obtain ⟨k, hk⟩ := List.mem_iff_getElem?.mp htake
  rw [List.getElem?_take, Option.ite_none_right_eq_some] at hk
  exact ⟨k, hk⟩

/-! ## Decimal bytes -/

/-- The four digits and their bytes, position by position (R134). -/
theorem exists_digits_decimalBytes (v : Int) (dp : Places) : ∃ d0 d1 d2 d3 : Digit,
    decomposeDecimal v = [d0, d1, d2, d3] ∧
    decimalBytes v dp = [encUnit d0 (dpPos dp == some 0), encUnit d1 (dpPos dp == some 1),
      encUnit d2 (dpPos dp == some 2), encUnit d3 (dpPos dp == some 3)] :=
  ⟨_, _, _, _, rfl, rfl⟩

/-- The byte at position `k` has the point exactly when `dpPos(DP)` is `k`. -/
theorem getElem?_decimalBytes_point (h : (decimalBytes v dp)[k]? = some x) : x.getLsbD 7 = (dpPos dp == some k) := by
  rw [decimalBytes, List.getElem?_mapIdx] at h
  obtain ⟨d, -, rfl⟩ := Option.map_eq_some_iff.mp h
  exact encUnit_point d _

/-- When the pointed position, if any, lies at or above `ADC`, no sent byte has the point (R133, R186). -/
theorem Cfg.order_decimalBytes_point (hpos : ∀ k, dpPos dp = some k → c.adc ≤ k)
    (h : x ∈ c.order (decimalBytes v dp)) : x.getLsbD 7 = false := by
  obtain ⟨k, hlt, hx⟩ := Cfg.exists_position_of_mem_order h
  rw [getElem?_decimalBytes_point hx, beq_eq_false_iff_ne]
  exact fun hk => Nat.not_le_of_lt hlt (hpos k hk)

theorem dpPos_eq (dp : Places) :
    dpPos dp = if dp.val = 1 then some 1 else if dp.val = 2 then some 2 else if dp.val = 3 then some 3 else none := by
  revert dp; decide

/-- The configurations of R186, in which the pointed position is not sent. -/
theorem Cfg.adc_le_dpPos (h : (c.muxEn = false ∧ (c.dp = 2 ∨ c.dp = 3)) ∨ c.dp = 4) (hk : dpPos c.dp = some k) :
    c.adc ≤ k := by
  obtain ⟨hmux, hdp⟩ | hdp := h
  · have hadc : c.adc = 2 := by simp [Cfg.adc, hmux]
    obtain hdp | hdp := hdp <;> rw [hdp] at hk <;> cases hk <;> omega
  · rw [hdp] at hk
    cases hk

/-- Each of the five values of `DP` is stored by the operand of that value (42_config_commands.md R114). -/
theorem placesOperand_ofNat (n : Places) : placesOperand (BitVec.ofNat 32 n.val) = n := by
  revert n; decide

/-! ## Hex bytes -/

/-- The digit's byte inside the produced length, a blank above it (R136). -/
theorem hexBytes_eq (n : Nat) : hexBytes n = (List.range 4).map fun k =>
    if hk : k < (decomposeHex n).length then encodeDigit (decomposeHex n)[k] else 0x00 := by
  refine List.map_congr_left fun k _ => ?_
  by_cases hk : k < (decomposeHex n).length
  · rw [dif_pos hk, List.getElem?_eq_getElem hk]
  · rw [dif_neg hk, List.getElem?_eq_none (Nat.not_lt.mp hk)]

/-- Neither a digit of the lookup table nor a blank has the point. -/
theorem hexBytes_point (h : x ∈ hexBytes n) : x.getLsbD 7 = false := by
  rw [hexBytes_eq] at h
  obtain ⟨k, -, rfl⟩ := List.mem_map.mp h
  split
  · exact encodeDigit_point _
  · rfl

/-! ## The open conversion -/

/-- A product outside (-1, 65536), or a NaN, makes the scaled value the free one (41_decomposer.md R95). -/
theorem scaledReal_of_outOfRange {arg : Arg}
    (h : realProduct arg dp = .nan ∨ (realProduct arg dp).leNegOne = true ∨ (realProduct arg dp).geTwo16 = true) :
    scaledReal arg dp = Config.realOor arg dp := by
  have hnone : (realProduct arg dp).toU16 = none := if_pos h
  rw [scaledReal_eq, hnone, Option.getD_none]

end Sys2Proof.Machine
end

section
/-! The obligations of 43_display_commands.md. -/

namespace Sys2Proof.Machine

/-- Settles O37: the events each display command leaves are whole frames; the point of their bytes is that of the
decimal, hex or zero bytes they carry. -/
theorem displayCommandsKeepConfiguration : Obligations.DisplayCommandsKeepConfiguration := by
  intro i s t hi hx
  obtain ⟨-, rfl⟩ | ⟨hn, -⟩ := exec_next hx
  case inr => exact absurd hi hn
  refine ⟨?_, ?_, ?_⟩
  · rintro (rfl | ⟨arg, rfl⟩)
    · exact ⟨rfl, _, List.length_replicate, fun b hb => List.eq_of_mem_replicate hb ▸ rfl, s.cfg.ofEvents_frame _ _⟩
    · exact ⟨rfl, _, s.cfg.length_order (length_hexBytes _), fun b hb => hexBytes_point (s.cfg.mem_of_mem_order hb),
        s.cfg.ofEvents_frame _ _⟩
  · have hpoint (v : Int) (k : Nat) (x : Byte) (hb : (decimalBytes v s.cfg.dp)[k]? = some x)
        (hk : dpPos s.cfg.dp ≠ some k) : x.getLsbD 7 = false :=
      (getElem?_decimalBytes_point hb).trans (beq_false_of_ne hk)
    rintro (⟨arg, rfl⟩ | ⟨arg, rfl⟩) <;>
      exact ⟨rfl, _, length_decimalBytes _ _, s.cfg.length_order (length_decimalBytes _ _), hpoint _,
        s.cfg.ofEvents_frame _ _⟩
  · rintro rfl
    exact ⟨rfl, _, _, Phase.ofEvents_cons _ _⟩

/-- Settles O40: the pointed position is not below `ADC`, and every `DP` is the reading of its own operand. -/
theorem pointOutsideSentDigits : Obligations.PointOutsideSentDigits :=
  ⟨fun _ _ h _ => Cfg.order_decimalBytes_point fun _ => Cfg.adc_le_dpPos h,
    fun _ n hi => ⟨_, exec_setDecimalPlaces_idle _ hi, placesOperand_ofNat n, rfl⟩⟩

/-- Settles O30, in either digit mode and either order. -/
theorem digitOrder : Obligations.DigitOrder := by
  intro c b0 b1 b2 b3
  cases hmux : c.muxEn with
  | false => rw [Cfg.order_two_digits hmux]; cases c.rev <;> rfl
  | true => rw [Cfg.order_four_digits hmux]; cases c.rev <;> rfl

/-- Settles O31: `dpPos` value by value; in 2-digit mode positions 2 and 3 are not sent. -/
theorem decimalPointPosition : Obligations.DecimalPointPosition :=
  ⟨dpPos_eq, fun _ _ _ hmux hdp =>
    Cfg.order_decimalBytes_point fun _ => Cfg.adc_le_dpPos (.inl ⟨hmux, hdp⟩)⟩

/-- Settles O32: the zero bytes are written as they stand, in no order. -/
theorem clearResult : Obligations.ClearResult := by
  refine fun arg s => ⟨(Reads.clear arg).decode_cmdWord, fun hi => ?_⟩
  rw [exec_clear_idle hi, Cfg.ofEvents_frame, List.map_replicate]
  rfl

/-- Settles O33, from the digits of the scaled integer. -/
theorem sendDecResult : Obligations.SendDecResult := by
  refine fun arg s => ⟨(Reads.sendDec arg).decode_cmdWord, fun hi => ?_⟩
  obtain ⟨d0, d1, d2, d3, hdigits, hbytes⟩ := exists_digits_decimalBytes (scaledInt (sext32 arg) s.cfg.dp) s.cfg.dp
  refine ⟨d0, d1, d2, d3, hdigits, ?_⟩
  rw [exec_sendDec_idle arg hi, hbytes, Cfg.ofEvents_frame]
  rfl

/-- Settles O34, from the digits of the scaled real and the products the conversion leaves open. -/
theorem sendDecRealResult : Obligations.SendDecRealResult := by
  refine fun arg s => ⟨(Reads.sendDecReal arg).decode_cmdWord, scaledReal_of_outOfRange, fun hi => ?_⟩
  obtain ⟨d0, d1, d2, d3, hdigits, hbytes⟩ := exists_digits_decimalBytes (scaledReal arg s.cfg.dp).toNat s.cfg.dp
  refine ⟨d0, d1, d2, d3, hdigits, ?_⟩
  rw [exec_sendDecReal_idle arg hi, hbytes, Cfg.ofEvents_frame]
  rfl

/-- Settles O35: position by position, the digit's byte or the blank. -/
theorem sendHexResult : Obligations.SendHexResult := by
  refine fun arg s => ⟨(Reads.sendHex arg).decode_cmdWord, fun hi => ?_⟩
  rw [exec_sendHex_idle arg hi, hexBytes_eq, Cfg.ofEvents_frame]
  rfl

/-- Settles O36: two frames to the command register and the hold between them. -/
theorem segmentTestResult : Obligations.SegmentTestResult :=
  fun arg _ => ⟨(Reads.segmentTest arg).decode_cmdWord, exec_segmentTest_idle⟩

end Sys2Proof.Machine
end

section
/-! SUPPORT. Which inputs a step reads in which phase, what reset does to a step, and when a step stops
(60_exceptions.md R160 to R162, R172). -/

namespace Sys2Proof.Machine

variable {s t : State} {i : Instr} {f : Cfg → Cfg × List Ev}

/-! ## The inputs of each phase -/

/-- The phase's move reads `frame_done` in `AwaitDone` only and `hold_expired` in `AwaitTimer` only. -/
theorem State.phaseMove_congr_pulses (hs : s.seq = t.seq) (ha : ∀ e, s.pins.accepts e = t.pins.accepts e)
    (hd : ∀ pend, s.seq = .awaitDone pend → s.pins.frameDone = t.pins.frameDone)
    (hx : ∀ pend, s.seq = .awaitTimer pend → s.pins.holdExpired = t.pins.holdExpired) :
    s.phaseMove = t.phaseMove := by
  unfold State.phaseMove
  rw [← hs]
  cases hseq : s.seq with
  | idle => rfl
  | busy pend =>
    cases pend with
    | nil => rfl
    | cons e rest => simp only [ha]
  | awaitDone rest => simp only [hd rest hseq]
  | awaitTimer rest => simp only [hx rest hseq]

/-- Beside the phase's move the enabled move reads the reset and command ports only. -/
theorem State.nextMove_congr (hb : s.hasBeenReset = t.hasBeenReset) (hs : s.seq = t.seq)
    (hr : s.pins.rst = t.pins.rst) (hraw : s.pins.rawAddr = t.pins.rawAddr) (hv : s.pins.cmdValid = t.pins.cmdValid)
    (hw : s.pins.cmdWord = t.pins.cmdWord) (hm : s.phaseMove = t.phaseMove) : s.nextMove = t.nextMove := by
  simp only [State.nextMove, hb, hs, hr, hraw, hv, hw, hm]

/-- A step with other levels on `frame_done` and `hold_expired` is the same step, if a level is kept in the phase that
awaits it. -/
theorem step_congr_pulses {p : Pins} {ps : List Pins} {d x : Bool} (hin : s.inputs = p :: ps)
    (hd : ∀ pend, s.seq = .awaitDone pend → p.frameDone = d)
    (hx : ∀ pend, s.seq = .awaitTimer pend → p.holdExpired = x) :
    step s = step { s with inputs := { p with frameDone := d, holdExpired := x } :: ps } := by
  obtain rfl : s.pins = p := by simp only [State.pins, hin]
  have hphase : s.phaseMove = State.phaseMove
      { s with inputs := { s.pins with frameDone := d, holdExpired := x } :: ps } :=
    State.phaseMove_congr_pulses rfl (fun e => by cases e <;> rfl) hd hx
  exact step_congr (State.nextMove_congr rfl rfl rfl rfl rfl rfl hphase) (by simp [State.tick, hin])

/-! ## Reset, and `Idle` without a command -/

/-- An asserted reset wins over every other input; a block in a command is not reset. -/
theorem State.nextMove_rst (hr : s.pins.rst = true) :
    s.nextMove = if s.hasBeenReset ∧ s.seq ≠ .idle then .refuse .resetWhileBusy else .reset s.pins.rawAddr :=
  if_pos hr

theorem step_reset (hr : s.pins.rst = true) (hi : s.seq = .idle) :
    step s = .next (s.tick.resetBy s.pins.rawAddr) := by
  simp [step, State.nextMove_rst hr, hi]

theorem step_reset_busy (hr : s.pins.rst = true) (hb : s.hasBeenReset = true) (hi : s.seq ≠ .idle) :
    step s = .refused .resetWhileBusy := by
  simp [step, State.nextMove_rst hr, hb, hi]

/-- In `Idle` with no command presented nothing is enabled. -/
theorem step_idle_waits (hb : s.hasBeenReset = true) (hr : s.pins.rst = false) (hi : s.seq = .idle)
    (hv : s.pins.cmdValid = false) : step s = .next s.tick := by
  have hm : s.nextMove = s.phaseMove := State.nextMove_phase hr hb (by simp [hv])
  simp only [step, hm, State.phaseMove, hi]

/-! ## Steps that stop -/

/-- The two refusals that are no command's. -/
theorem State.nextMove_refuse {r : Refusal} (h : s.nextMove = .refuse r) :
    (s.pins.rst = true ∧ s.hasBeenReset = true ∧ s.seq ≠ .idle) ∨
    (s.hasBeenReset = false ∧ s.pins.cmdValid = true) := by
  unfold State.nextMove at h
  split at h
  · next hr =>
    split at h
    · next hbusy => exact .inl ⟨hr, hbusy⟩
    · cases h
  · split at h
    · next hb =>
      split at h
      · next hv => exact .inr ⟨by simpa using hb, hv⟩
      · cases h
    · obtain ⟨-, -, hne⟩ := s.phaseMove_ne
      split at h
      · cases h
      · exact absurd h (hne r)

theorem State.exists_accept_eq_next : ∃ t, s.accept f = .next t := by
  by_cases hi : s.seq = .idle
  · exact ⟨_, State.accept_idle hi⟩
  · exact ⟨_, State.accept_waits hi⟩

/-- Of the commands only the reserved rows stop. -/
theorem exists_exec_eq_next (h : i.isReserved = false) : ∃ t, exec i s = .next t := by
  rw [exec_eq_accept_afterCmd h]
  exact State.exists_accept_eq_next

end Sys2Proof.Machine
end

section
/-! The obligations of 60_exceptions.md. -/

namespace Sys2Proof.Machine

/-- Settles O47: in another phase the pulse may have any level (`step_congr_pulses`). -/
theorem pulsesIgnoredOutsideTheirPhase : Obligations.PulsesIgnoredOutsideTheirPhase := fun _ _ _ _ hin =>
  ⟨fun hs => step_congr_pulses hin (fun pend h => absurd h (hs pend)) fun _ _ => rfl,
    fun hs => step_congr_pulses hin (fun _ _ => rfl) fun pend h => absurd h (hs pend)⟩

/-- Settles O48, from the one step of each of R162's cases. -/
theorem simultaneousEvents : Obligations.SimultaneousEvents := fun _ hb =>
  ⟨fun hr => ⟨step_reset hr, step_reset_busy hr hb⟩,
    fun hr hi => step_ready hb (State.cmdReady_iff.mpr ⟨hi, hr⟩),
    step_idle_waits hb,
    fun hr ⟨_, hc⟩ =>
      ⟨fun _ _ => step_busy hb hr hc, fun _ => step_awaitDone hb hr hc, fun _ => step_awaitTimer hb hr hc⟩⟩

/-- Settles O54: of the moves only a refusal and a reserved word stop, and the host's duties exclude both. -/
theorem legalStepsNeverStop : Obligations.LegalStepsNeverStop := by
  intro s hb ⟨hreset, hassigned⟩
  unfold step
  cases hm : s.nextMove with
  | run i =>
    obtain ⟨-, -, hv, rfl, -⟩ := State.nextMove_run hm
    exact exists_exec_eq_next (hassigned hv)
  | refuse r =>
    obtain ⟨hr, -, hi⟩ | ⟨hnb, -⟩ := State.nextMove_refuse hm
    · exact absurd (hreset hr) hi
    · simp [hb] at hnb
  | _ => exact ⟨_, rfl⟩

end Sys2Proof.Machine
end

section
/-! SUPPORT. The address conversion, the reset step as an inversion, and what makes the block wait
(70_reset_and_hazards.md R180, R181, R188). -/

namespace Sys2Proof.Machine

variable {s t : State}

/-! ## Reset -/

/-- The raw address without its bit 0, as a number. -/
theorem toNat_addrOfRaw (raw : BitVec 8) : (addrOfRaw raw).toNat = raw.toNat / 2 := by
  have hraw : raw.toNat / 2 < 2 ^ 7 := by omega
  rw [addrOfRaw, BitVec.extractLsb'_toNat, Nat.shiftRight_eq_div_pow, pow_one, Nat.mod_eq_of_lt hraw]

/-- A step with reset asserted that has a next state resets the block. -/
theorem step_reset_next (hr : s.pins.rst = true) (h : step s = .next t) : t = s.tick.resetBy s.pins.rawAddr := by
  by_cases hbusy : s.hasBeenReset = true ∧ s.seq ≠ .idle
  · obtain ⟨hb, hi⟩ := hbusy
    rw [step_reset_busy hr hb hi] at h
    cases h
  · have hm : s.nextMove = .reset s.pins.rawAddr := by rw [State.nextMove_rst hr, if_neg hbusy]
    simpa only [step, hm, Host.Outcome.next.injEq, eq_comm] using h

theorem State.cmdReady_of_rst (hr : s.pins.rst = true) : s.cmdReady = false := by
  simp [State.cmdReady, hr]

theorem State.cmdReady_of_ne_idle (hi : s.seq ≠ .idle) : s.cmdReady = false := by
  simp [State.cmdReady, hi]

/-- `State.reset` is a reset with `P_RAW_ADDR` on `raw_addr`. -/
theorem State.resetBy_reset : State.reset.resetBy Config.rawAddr = State.reset := rfl

/-! ## Waiting -/

/-- When what the phase waits for does not come (the acceptance of the head event, `frame_done` or `hold_expired`), the
block waits outside `Idle`. -/
theorem step_stalled (hb : s.hasBeenReset = true) (hr : s.pins.rst = false)
    (hc : s.pins.cmdValid = true → (decode s.pins.cmdWord).isReserved = false)
    (h : (∃ e rest, s.seq = .busy (e :: rest) ∧ s.pins.accepts e = false) ∨
      (∃ rest, s.seq = .awaitDone rest ∧ s.pins.frameDone = false) ∨
      (∃ rest, s.seq = .awaitTimer rest ∧ s.pins.holdExpired = false)) :
    step s = .next s.tick ∧ s.seq ≠ .idle := by
  obtain ⟨e, rest, hs, ha⟩ | ⟨rest, hs, hd⟩ | ⟨rest, hs, hx⟩ := h
  · exact ⟨by simp [step_busy hb hr hc hs, ha], by simp [hs]⟩
  · exact ⟨by simp [step_awaitDone hb hr hc hs, hd], by simp [hs]⟩
  · exact ⟨by simp [step_awaitTimer hb hr hc hs, hx], by simp [hs]⟩

end Sys2Proof.Machine
end

section
/-! The obligations of 70_reset_and_hazards.md. -/

namespace Sys2Proof.Machine

/-- Settles O41: in `Idle` the step is the reset (`step_reset`), whose configuration meets R31. -/
theorem resetState : Obligations.ResetState :=
  ⟨fun _ hr hi => ⟨State.cmdReady_of_rst hr, _, step_reset hr hi, rfl, rfl, Cfg.Inv.reset _,
      fun hrel => State.cmdReady_iff.mpr ⟨rfl, hrel⟩⟩,
    rfl, rfl, rfl, rfl⟩

/-- Settles O42: a step with reset asserted samples the address, and no accepted command writes it. -/
theorem addressConversion : Obligations.AddressConversion := by
  refine ⟨toNat_addrOfRaw, rfl, rfl, rfl, fun s t hr hst => ?_, fun s t hr hst => ?_⟩
  · rw [step_reset_next hr hst, State.resetBy_cfg]
  · obtain hc | ⟨-, hc⟩ := step_cfg hr hst <;> rw [hc]
    exact s.cfg.afterCmd_addr _

/-- Settles O50: in each of the three phases the step only uses up its inputs (`step_stalled`). -/
theorem stalledBlockWaits : Obligations.StalledBlockWaits := by
  intro s hb ⟨_, hc⟩ hr hstall
  obtain ⟨hstep, hi⟩ := step_stalled hb hr hc hstall
  exact ⟨hstep, State.cmdReady_of_ne_idle hi⟩

/-- Settles O55: a reset keeps R31's invariant where no frame is open, and at first nothing has been sent. -/
theorem invariantHoldsAtReset : Obligations.InvariantHoldsAtReset := by
  unfold Obligations.InvariantHoldsAtReset
  rw [← State.resetBy_reset]
  exact State.Inv.resetBy rfl _

end Sys2Proof.Machine
end
